-- ==== Sys2Proof/Word.lean ====
section
/-!
DEFINITION. The widths of the block's values (spec/00_scope.md R8, R9, R11; spec/10_state.md R30) and the two small
name sets that the rest of the model speaks of: the three agents (R7) and the two grains (R13).
-/

namespace Sys2Proof

/-- An 8-bit value: a delay-RAM cell (`DELAY_W`), a decay rate (`DECAY_W`), a sample, the output register (`OUT_W`). -/
abbrev Byte := BitVec 8

/-- A 16-bit value: a phase accumulator (`PHASE_W`), an increment, a table entry, the cursor (`CURSOR_W`). -/
abbrev Half := BitVec 16

/-- A 15-bit grain amplitude (`AMP_W`). -/
abbrev Amp := BitVec 15

/-- A 10-bit control reading (`ADC_W`). -/
abbrev Reading := BitVec 10

/-- One 20-bit command word `w[19:0]` (spec/30_encoding.md R80). -/
abbrev CommandWord := BitVec 20

/-- The three agents that drive the block (spec/00_scope.md R7). -/
inductive Agent where
  | main
  | ticker
  | host
deriving DecidableEq, Repr

/-- The index k of a grain register, k in 1, 2 (spec/00_scope.md R13; `N_GRAIN` = 2, R8). -/
inductive GrainId where
  | one
  | two
deriving DecidableEq, Repr

end Sys2Proof
end

