-- ==== Sys2Proof/Config.lean ====
section
/-!
DEFINITION. The implementation parameters of spec/00_scope.md R8-R10.
Constants the document or the spec fixes are numerals here; the parameters the spec leaves OPEN and a step reads are the
fields of `Config`, which State carries, so that a statement about every state is a statement about every instance
(R10: "a claim quantifies over it or names it as a premise"). The two OPEN parameters that no rule reads are constants
without a body.
-/

namespace Sys2Proof

/-- `DELAY_LEN` (R8): entries of the delay RAM. -/
def delayLen : Nat := 2048

/-- `AMP_MAX` (R8): the amplitude that a retrigger sets. -/
def ampMax : Amp := 0x7FFF

/-- `CHROM_DIV` (R9): bucket width of the chromatic map. -/
def chromDiv : Nat := 8

/-- `PENTA_DIV` (R9): bucket width of the pentatonic map, 1024 div 53. -/
def pentaDiv : Nat := 19

/-- `ANTILOG_LEN` (R8). -/
abbrev antilogLen : Nat := 64

/-- `CHROM_BUCKETS` (R8). -/
abbrev chromLen : Nat := 128

/-- `PENTA_LEN` (R9). -/
abbrev pentaLen : Nat := 54

/-- `TRI_LSB` (R9, R124; spec/93 U12): the lowest accumulator bit of the triangle magnitude. The spec knows two instances:
8, "the upper byte", which it follows, and 7. -/
inductive TriLsb where
  | eight
  | seven
deriving DecidableEq, Repr

/-- The bit number an instance of `TRI_LSB` stands for. -/
def TriLsb.bit : TriLsb → Nat
  | .eight => 8
  | .seven => 7

/-- The order of stage S8's two events. The spec lists them both ways: R153 before R154, R120's pseudocode and vector V5
give `Out` and then `Status`; R120's example and the programs of spec/95 list `Status` and then `Out`. The registers do not
depend on it. The model keeps it open (log 12). -/
inductive S8Order where
  | outFirst
  | statusFirst
deriving DecidableEq, Repr

/-- The parameters a step reads: `OUT_SHIFT` is a natural 0..16 (R10), the tables have exactly the lengths of R10, so no
shorter table is an instance (R108). -/
structure Config where
  triLsb : TriLsb
  outShift : Fin 17
  antilog : Vector Half antilogLen
  chrom : Vector Half chromLen
  penta : Vector Half pentaLen
  s8Order : S8Order
deriving DecidableEq, Repr

/-! The default tables of R105, R106, R107, as lists. -/

def antilogPart0 : List Half :=
  [64830, 64132, 63441, 62757, 62081, 61413, 60751, 60097, 59449, 58809, 58176, 57549, 56929, 56316, 55709, 55109,
   54515, 53928, 53347, 52773, 52204, 51642, 51085, 50535, 49991, 49452, 48920, 48393, 47871, 47356, 46846, 46341]

def antilogPart1 : List Half :=
  [45842, 45348, 44859, 44376, 43898, 43425, 42958, 42495, 42037, 41584, 41136, 40693, 40255, 39821, 39392, 38968,
   38548, 38133, 37722, 37316, 36914, 36516, 36123, 35734, 35349, 34968, 34591, 34219, 33850, 33486, 33125, 32768]

def chromPart0 : List Half :=
  [17, 18, 19, 20, 22, 23, 24, 26, 27, 29, 31, 32, 34, 36, 38, 41,
   43, 46, 48, 51, 54, 58, 61, 65, 69, 73, 77, 82, 86, 92, 97, 103]

def chromPart1 : List Half :=
  [109, 115, 122, 129, 137, 145, 154, 163, 173, 183, 194, 206, 218, 231, 244, 259,
   274, 291, 308, 326, 346, 366, 388, 411, 435, 461, 489, 518, 549, 581, 616, 652]

def chromPart2 : List Half :=
  [691, 732, 776, 822, 871, 923, 978, 1036, 1097, 1163, 1232, 1305, 1383, 1465, 1552, 1644,
   1742, 1845, 1955, 2071, 2195, 2325, 2463, 2610, 2765, 2930, 3104, 3288, 3484, 3691, 3910, 4143]

def chromPart3 : List Half :=
  [4389, 4650, 4927, 5220, 5530, 5859, 6207, 6577, 6968, 7382, 7821, 8286, 8779, 9301, 9854, 10440,
   11060, 11718, 12415, 13153, 13935, 14764, 15642, 16572, 17557, 18601, 19708, 20879, 22121, 23436, 24830, 26306]

def pentaPart0 : List Half :=
  [0, 19, 22, 26, 29, 32, 38, 43, 51, 58, 65, 77, 86, 103, 115, 129,
   154, 173, 206, 231, 259, 308, 346, 411, 461, 518, 616]

def pentaPart1 : List Half :=
  [691, 822, 923, 1036, 1232, 1383, 1644, 1845, 2071, 2463, 2765, 3288, 3691, 4143, 4927, 5530,
   6577, 7382, 8286, 9854, 11060, 13153, 14764, 16572, 19708, 22121, 26306]

/-- The default `ANTILOG` (R105). -/
def defaultAntilog : Vector Half antilogLen := ⟨⟨antilogPart0 ++ antilogPart1⟩, by rfl⟩

/-- The default `CHROM` (R106). -/
def defaultChrom : Vector Half chromLen := ⟨⟨chromPart0 ++ chromPart1 ++ chromPart2 ++ chromPart3⟩, by rfl⟩

/-- The default `PENTA` (R107). -/
def defaultPenta : Vector Half pentaLen := ⟨⟨pentaPart0 ++ pentaPart1⟩, by rfl⟩

/-- The instance the spec gives as its default: `TRI_LSB` 8 (R9), `OUT_SHIFT` 9 (R10, D8), the tables of R105-R107,
and the order of S8's events that the rules' pseudocode has (log 12).
R10: "A default is an instance a test vector may use. It is not a claim about the chip."
DESIGN CHOICE, unsafe (log 7): State.reset carries it, since that state must be one concrete state. -/
def defaultConfig : Config where
  triLsb := .eight
  outShift := 9
  antilog := defaultAntilog
  chrom := defaultChrom
  penta := defaultPenta
  s8Order := .outFirst

/-- OPEN (R10, D37), no default and read by no rule: free, log 9. The rate is positive, so this is the rate less one. -/
opaque Config.sampleRatePred : Nat

/-- `SAMPLE_RATE_HZ` (R10): some positive natural. -/
def Config.sampleRateHz : Nat := Config.sampleRatePred + 1

/-- `PARAM_BASE` (R66, D22): where a platform places the registers; OPEN and read by no rule: free, log 9. -/
opaque Config.paramBase : Nat

end Sys2Proof
end

