-- ==== Sys2Proof/Syntax.lean ====
section
/-!
DEFINITION. The ten operations of the block (spec/30_encoding.md R83), one constructor per row of the opcode table.
Every operand has exactly the width of its field (R81, R82), so no instruction term is out of range; what can be
ill-formed is a command word or an assembler line (Sys2Proof/WellFormed.lean).
-/

namespace Sys2Proof

inductive Instr where
  /-- WR_SYNC_INC imm16 (R170). -/
  | wrSyncInc (imm16 : Half)
  /-- WR_G1_INC imm16 (R171). -/
  | wrG1Inc (imm16 : Half)
  /-- WR_G1_DEC imm8 (R172). -/
  | wrG1Dec (imm8 : Byte)
  /-- WR_G2_INC imm16 (R173). -/
  | wrG2Inc (imm16 : Half)
  /-- WR_G2_DEC imm8 (R174). -/
  | wrG2Dec (imm8 : Byte)
  /-- TICK e (R120). -/
  | tick (e : Bool)
  /-- MAP_LOG x (R101). -/
  | mapLog (x : Reading)
  /-- MAP_CHROM x (R102). -/
  | mapChrom (x : Reading)
  /-- MAP_PENTA x (R103). -/
  | mapPenta (x : Reading)
  /-- RESET (R231). -/
  | reset
deriving DecidableEq, Repr

end Sys2Proof
end

