-- ==== Sys2Proof/Assembly.lean ====
section
/-!
DEFINITION. The syntax of an assembler line (spec/30_encoding.md R86) and of the pseudo-instructions (R87), with operands
as the numbers that are written. Which numbers are in range is said in Sys2Proof/WellFormed.lean; what a line assembles
to, in Sys2Proof/Machine/Assembler.lean.
-/

namespace Sys2Proof

/-- One operation or pseudo-instruction as it is written. -/
inductive AsmOp where
  | wrSync (imm16 : Nat)
  | wrG1Inc (imm16 : Nat)
  | wrG1Dec (imm8 : Nat)
  | wrG2Inc (imm16 : Nat)
  | wrG2Dec (imm8 : Nat)
  | tick (e : Nat)
  | mapLog (x : Nat)
  | mapChrom (x : Nat)
  | mapPent (x : Nat)
  | reset
  /-- `wr.params a, b, c, d, f` (R87), in the field order of the document's §3. -/
  | wrParams (a b c d f : Nat)
  /-- `ticks n, e` (R87). -/
  | ticks (n e : Nat)
  /-- `wr.voice1 inc, dec` (R87). -/
  | wrVoice1 (inc dec : Nat)
  /-- `wr.voice2 inc, dec` (R87). -/
  | wrVoice2 (inc dec : Nat)
deriving DecidableEq, Repr

/-- A line: an operation, with the agent prefix `main:`, `tick:` or `host:` if it carries one (R86). -/
structure AsmLine where
  agent : Option Agent
  op : AsmOp
deriving DecidableEq, Repr

end Sys2Proof
end

