-- ==== Sys2Proof/WellFormed.lean ====
section
/-!
DEFINITION. What is well-formed before anything is run: a command word that selects a row of the opcode map
(spec/30_encoding.md R83; every other word is a reserved encoding, R84), and an assembler line whose operands are in
range (R86: "An operand out of its range is an assembly error, not an encoding").
The rows are transcribed from R83 as masks and patterns, independently of the field-by-field decoder.
-/

namespace Sys2Proof

/-- One row of the opcode map (R83): a word w selects it when `w &&& mask = pattern`. -/
structure OpRow where
  mnemonic : String
  pattern : CommandWord
  mask : CommandWord
  agent : Agent
deriving DecidableEq, Repr

/-- The opcode map of R83, in its order. -/
def opRows : List OpRow :=
  [ ⟨"WR_SYNC_INC", 0x10000, 0xF0000, .main⟩,
    ⟨"WR_G1_INC",   0x20000, 0xF0000, .main⟩,
    ⟨"WR_G1_DEC",   0x30000, 0xF0000, .main⟩,
    ⟨"WR_G2_INC",   0x40000, 0xF0000, .main⟩,
    ⟨"WR_G2_DEC",   0x50000, 0xF0000, .main⟩,
    ⟨"TICK",        0x80000, 0xFFFFE, .ticker⟩,
    ⟨"MAP_LOG",     0x90000, 0xFFC00, .main⟩,
    ⟨"MAP_CHROM",   0xA0000, 0xFFC00, .main⟩,
    ⟨"MAP_PENTA",   0xB0000, 0xFFC00, .main⟩,
    ⟨"RESET",       0xF0000, 0xFFFFF, .host⟩ ]

/-- A word selects a row (R83). -/
def OpRow.selects (r : OpRow) (w : CommandWord) : Bool := w &&& r.mask == r.pattern

/-- A word that selects some row: a legal encoding. -/
def wordWellFormed (w : CommandWord) : Bool := opRows.any fun r => r.selects w

/-- A word that agent `a` may issue: it selects a row of that agent (R83's agent column, R88). -/
def wordFor (a : Agent) (w : CommandWord) : Bool := opRows.any fun r => r.selects w && r.agent == a

/-- The operand ranges of R86: imm16 below 65536, imm8 below 256, e in 0, 1, x at most 1023. A pseudo-instruction's
operands are those of its members (R87). -/
def AsmOp.wellFormed : AsmOp → Bool
  | .wrSync n | .wrG1Inc n | .wrG2Inc n => n < 65536
  | .wrG1Dec n | .wrG2Dec n => n < 256
  | .tick e => e < 2
  | .mapLog x | .mapChrom x | .mapPent x => x ≤ 1023
  | .reset => true
  | .wrParams a b c d f => a < 65536 && b < 65536 && c < 256 && d < 65536 && f < 256
  | .ticks _ e => e < 2
  | .wrVoice1 inc dec | .wrVoice2 inc dec => inc < 65536 && dec < 256

end Sys2Proof
end

