-- ==== Sys2Proof/Decode.lean ====
section
/-!
DEFINITION. The decoder of a 20-bit command word, total and rejecting by name (spec/30_encoding.md R80-R85), and after it
the encoder from the same formats (R81, R86). The issuing agent of each operation is R83's agent column.
-/

namespace Sys2Proof

/-- Why a word is no operation (R84; spec/60_exceptions.md R201). -/
inductive DecodeFault where
  /-- Opcode 0x0, 0x6, 0x7, 0xC, 0xD or 0xE, whatever the operand. -/
  | reservedOpcode
  /-- A `T`, `M` or `Z` word with a nonzero reserved bit. -/
  | reservedOperand
deriving DecidableEq, Repr

/-! The fields of R80 and R81. Operands are zero-extended fields, never scaled or shifted (R82). -/

/-- `op = w[19:16]`. -/
def opField (w : CommandWord) : BitVec 4 := w.extractLsb' 16 4

/-- `imm16 = w[15:0]` of a `W16` word; the reserved bits of a `Z` word. -/
def imm16Field (w : CommandWord) : Half := w.extractLsb' 0 16

/-- `imm8 = w[7:0]` of a `W8` word; `w[15:8]` is ignored. -/
def imm8Field (w : CommandWord) : Byte := w.extractLsb' 0 8

/-- `e = w[0]` of a `T` word. -/
def eField (w : CommandWord) : Bool := w.getLsbD 0

/-- `w[15:1]`, the reserved bits of a `T` word. -/
def reservedT (w : CommandWord) : BitVec 15 := w.extractLsb' 1 15

/-- `x = w[9:0]` of an `M` word. -/
def xField (w : CommandWord) : Reading := w.extractLsb' 0 10

/-- `w[15:10]`, the reserved bits of an `M` word. -/
def reservedM (w : CommandWord) : BitVec 6 := w.extractLsb' 10 6

/-- Format `T`: the reserved bits must be 0 (R81, R84). -/
def decodeT (w : CommandWord) : Except DecodeFault Instr :=
  if reservedT w = 0 then .ok (.tick (eField w)) else .error .reservedOperand

/-- Format `M`, for the operation `mk` of its opcode. -/
def decodeM (mk : Reading → Instr) (w : CommandWord) : Except DecodeFault Instr :=
  if reservedM w = 0 then .ok (mk (xField w)) else .error .reservedOperand

/-- Format `Z`. -/
def decodeZ (w : CommandWord) : Except DecodeFault Instr :=
  if imm16Field w = 0 then .ok .reset else .error .reservedOperand

/-- The opcode alone selects the format (R85); the opcode map is R83's. -/
def decode (w : CommandWord) : Except DecodeFault Instr :=
  match opField w with
  | 0x1#4 => .ok (.wrSyncInc (imm16Field w))
  | 0x2#4 => .ok (.wrG1Inc (imm16Field w))
  | 0x3#4 => .ok (.wrG1Dec (imm8Field w))
  | 0x4#4 => .ok (.wrG2Inc (imm16Field w))
  | 0x5#4 => .ok (.wrG2Dec (imm8Field w))
  | 0x8#4 => decodeT w
  | 0x9#4 => decodeM .mapLog w
  | 0xA#4 => decodeM .mapChrom w
  | 0xB#4 => decodeM .mapPenta w
  | 0xF#4 => decodeZ w
  | _ => .error .reservedOpcode

/-- The command word of an operation (R81, R86): a `W8` word's ignored bits and every reserved bit are written 0. -/
def encode : Instr → CommandWord
  | .wrSyncInc v => 0x1#4 ++ v
  | .wrG1Inc v => 0x2#4 ++ v
  | .wrG1Dec v => 0x3#4 ++ (0#8 ++ v)
  | .wrG2Inc v => 0x4#4 ++ v
  | .wrG2Dec v => 0x5#4 ++ (0#8 ++ v)
  | .tick e => 0x8#4 ++ (0#15 ++ BitVec.ofBool e)
  | .mapLog x => 0x9#4 ++ (0#6 ++ x)
  | .mapChrom x => 0xA#4 ++ (0#6 ++ x)
  | .mapPenta x => 0xB#4 ++ (0#6 ++ x)
  | .reset => 0xF#4 ++ 0#16

/-- The only agent that may issue an operation (R83's agent column; R88). -/
def Instr.agent : Instr → Agent
  | .wrSyncInc _ | .wrG1Inc _ | .wrG1Dec _ | .wrG2Inc _ | .wrG2Dec _ => .main
  | .mapLog _ | .mapChrom _ | .mapPenta _ => .main
  | .tick _ => .ticker
  | .reset => .host

/-- The mnemonic of R83. -/
def Instr.mnemonic : Instr → String
  | .wrSyncInc _ => "WR_SYNC_INC"
  | .wrG1Inc _ => "WR_G1_INC"
  | .wrG1Dec _ => "WR_G1_DEC"
  | .wrG2Inc _ => "WR_G2_INC"
  | .wrG2Dec _ => "WR_G2_DEC"
  | .tick _ => "TICK"
  | .mapLog _ => "MAP_LOG"
  | .mapChrom _ => "MAP_CHROM"
  | .mapPenta _ => "MAP_PENTA"
  | .reset => "RESET"

/-- The 20-bit word that a number of `nbits` bits stands for, or none where the number has a bit above bit 19: no command
word has one (R80). -/
def tableWord (nbits w : Nat) : Option CommandWord :=
  if w % 2 ^ nbits < 2 ^ 20 then some (BitVec.ofNat 20 (w % 2 ^ nbits)) else none

/-- The instruction the decoder reads from a word numbered as the opcode table numbers it: bit 0 least significant. The
block stores no words, so a word has no byte order (R62, R72; log 13). -/
def decodeTableWord (nbits w : Nat) : Option Instr :=
  match tableWord nbits w with
  | none => none
  | some cw =>
    match decode cw with
    | .ok i => some i
    | .error _ => none

end Sys2Proof
end

