-- ==== Sys2Proof/Machine/State.lean ====
section
/-!
DEFINITION. The state of the machine as plain data: the registers of spec/10_state.md R30 (the list is exact), the sticky
marks of spec/60_exceptions.md R202, the observation of R216, the agents' remaining operations with the order of turns
(spec/20_memory.md R68), and the implementation parameters a step reads (spec/00_scope.md R10).
-/

namespace Sys2Proof.Machine

/-- The reasons of R201. Each names the operation that raised it. All are safe: R201, "Each reason errs toward unprovable".
A raising step answers the state before it with `State.fault` set; a step of a state so marked stops with the reason
(R202; log 4). -/
inductive Fault where
  /-- Raised by decoding a word with opcode 0x0, 0x6, 0x7, 0xC, 0xD or 0xE (R84). Safe. -/
  | reservedOpcode (w : CommandWord)
  /-- Raised by decoding a `T`, `M` or `Z` word with a nonzero reserved bit (R84). Safe. -/
  | reservedOperand (w : CommandWord)
  /-- Raised by TICK stage S7 with e = 1 and `cursor` at 2048 or more (R159). Safe: no reachable state has it. -/
  | cursorOutOfRange (i : Instr)
  /-- Raised by TICK stage S5 where `-!` would go below 0 (R12). Safe: R131 proves that it never does. -/
  | decayUnderflow (i : Instr)
deriving DecidableEq, Repr

/-- Why an operation is given no meaning. Both are safe. -/
inductive Refusal where
  /-- An arm of `exec` without a meaning. No arm of this model answers it. Safe. -/
  | notModelled (mnemonic : String)
  /-- Raised by `step` for an operation issued by an agent that may not issue it (R88). Safe: such a run is outside the
  block's contract. -/
  | wrongAgent (issuer : Agent) (i : Instr)
deriving DecidableEq, Repr

/-- The events of R13. -/
inductive EventKind where
  /-- The status line is driven to b (R122, R154). -/
  | status (b : Bool)
  /-- The output register is driven to v (R153). -/
  | out (v : Byte)
  /-- A mapper's result, returned to the issuing agent (R100). -/
  | mapResult (v : Half)
deriving DecidableEq, Repr

/-- An event, "tagged with the operation that emitted it" (R216). -/
structure Event where
  op : Instr
  kind : EventKind
deriving DecidableEq, Repr

/-- The registers of one grain (R30, R32-R34): accumulator, amplitude, and the two parameter registers. -/
structure Grain where
  acc : Half
  amp : Amp
  inc : Half
  dec : Byte
deriving DecidableEq, Repr

/-- A grain's registers at reset (R30). -/
def Grain.zero : Grain := ⟨0, 0, 0, 0⟩

/-- What each agent has still to issue, in its own order, and whose turn comes next (R68, R89; log 1). The model's own
fields: the block holds no program (R40). -/
structure Agents where
  main : List CommandWord
  ticker : List CommandWord
  host : List CommandWord
  schedule : List Agent
deriving DecidableEq, Repr

/-- No operation listed and no turn given. -/
def Agents.idle : Agents := ⟨[], [], [], []⟩

/-- The delay RAM's contents (R36, R60) as a list of cells in canonical form: indices strictly rising and below
`DELAY_LEN`, and no cell listed that holds what an unlisted one reads as (Machine/Ops.lean, `Memory.wf`). -/
abbrev Memory := List Host.Cell

/-- The whole machine. -/
structure State where
  /-- The parameters of this instance; no step writes them (R10). -/
  cfg : Config
  /-- `sync_acc` (R31). -/
  syncAcc : Half
  /-- `sync_inc`, parameter register 1 (R34). -/
  syncInc : Half
  /-- Grain 1: `g_acc[1]`, `g_amp[1]`, `g_inc[1]` (register 2), `g_dec[1]` (register 3). -/
  g1 : Grain
  /-- Grain 2: `g_acc[2]`, `g_amp[2]`, `g_inc[2]` (register 4), `g_dec[2]` (register 5). -/
  g2 : Grain
  /-- `delay[0..2047]` (R36). -/
  delay : Memory
  /-- `cursor` (R37). -/
  cursor : Half
  /-- `out_reg` (R38). -/
  outReg : Byte
  /-- `status` (R39). -/
  status : Bool
  /-- The sticky fault mark (R30, R202). -/
  fault : Option Fault
  /-- The sticky refusal mark (R88, R202). -/
  refusal : Option Refusal
  /-- The observation so far, oldest first (R216). -/
  events : List Event
  /-- The agents' remaining operations and turns (R68). -/
  agents : Agents
deriving DecidableEq, Repr

/-- The state right after power-on (R230), for any instance of the parameters, any contents of the delay RAM
(`delay_init`) and any operations of the agents: every register at its R30 value, both marks clear, nothing emitted. -/
def State.powerOn (cfg : Config) (delayInit : Memory) (agents : Agents) : State where
  cfg := cfg
  syncAcc := 0
  syncInc := 0
  g1 := Grain.zero
  g2 := Grain.zero
  delay := delayInit
  cursor := 0
  outReg := 0
  status := false
  fault := none
  refusal := none
  events := []
  agents := agents

/-- Power-on of the spec's default instance (log 7) with a zeroed delay RAM, the instance R230 names `delay_zeroed`
(log 8), and no operation listed (log 3). DESIGN CHOICE, unsafe in those two values; a statement about power-on speaks of
`State.powerOn`. -/
def State.reset : State := State.powerOn defaultConfig [] Agents.idle

end Sys2Proof.Machine
end

