-- ==== Sys2Proof/Machine/Ops.lean ====
section
/-!
DEFINITION. The named operations over the delay RAM, the registers, the observation and the agents' lists, raising a fault,
refusing an operation, and issuing the next operation. Every instruction's meaning is written over these.
-/

namespace Sys2Proof.Machine

/-! ## The delay RAM (spec/20_memory.md R60, R61) -/

/-- What an unlisted cell reads as. DESIGN CHOICE (log 8): only the form of the list depends on it, since every contents of
the RAM has a list; State.reset's RAM lists nothing, so it is all zeros, which is unsafe where a statement names
State.reset. -/
def Memory.unlisted : Byte := 0

/-- The byte that cell `a` holds. -/
def Memory.get : Memory → Nat → Byte
  | [], _ => Memory.unlisted
  | (b, x) :: m, a => if b = a then x else Memory.get m a

/-- A cell in front of a list, unless it holds what an unlisted cell reads as. -/
def Memory.cons (a : Nat) (v : Byte) (m : Memory) : Memory :=
  if v = Memory.unlisted then m else (a, v) :: m

/-- Cell `a` set to `v`, keeping the canonical form. -/
def Memory.put : Memory → Nat → Byte → Memory
  | [], a, v => Memory.cons a v []
  | (b, x) :: m, a, v =>
    if a < b then Memory.cons a v ((b, x) :: m)
    else if a = b then Memory.cons a v m
    else (b, x) :: Memory.put m a v

/-- Every index of the list is above `lo`, and the indices rise strictly. -/
def Memory.risingFrom : Nat → Memory → Bool
  | _, [] => true
  | lo, (a, _) :: m => decide (lo ≤ a) && Memory.risingFrom (a + 1) m

/-- The canonical form: indices strictly rising, every index a cell of the RAM, no cell listed with the unlisted value. -/
def Memory.wf (m : Memory) : Bool :=
  Memory.risingFrom 0 m && m.all fun c => decide (c.1 < delayLen) && decide (c.2 ≠ Memory.unlisted)

/-- `MemRead(i, 1)` (R61): none where the rule raises `CursorOutOfRange`. -/
def memRead (m : Memory) (i : Nat) : Option Byte :=
  if i < delayLen then some (m.get i) else none

/-- `MemWrite(i, 1, v)` (R61): exactly one cell changes; none where the rule raises `CursorOutOfRange`. -/
def memWrite (m : Memory) (i : Nat) (v : Byte) : Option Memory :=
  if i < delayLen then some (m.put i v) else none

/-! ## Registers (spec/00_scope.md R13) -/

/-- Grain k's registers. -/
def State.grain (s : State) : GrainId → Grain
  | .one => s.g1
  | .two => s.g2

/-- Grain k's registers replaced. -/
def State.setGrain (s : State) (k : GrainId) (g : Grain) : State :=
  match k with
  | .one => { s with g1 := g }
  | .two => { s with g2 := g }

/-- The same change to both grains ("for k in 1, 2"). -/
def State.mapGrains (f : Grain → Grain) (s : State) : State :=
  { s with g1 := f s.g1, g2 := f s.g2 }

/-- `a -! b` (R12): natural subtraction, none where it would go below 0. -/
def subExact (a b : Nat) : Option Nat :=
  if b ≤ a then some (a - b) else none

/-! ## Events (R13, R216) -/

/-- `emit E`, for the operation `i`. -/
def State.emit (i : Instr) (k : EventKind) (s : State) : State :=
  { s with events := s.events ++ [⟨i, k⟩] }

/-! ## Marks (spec/60_exceptions.md R202) -/

/-- `raise Fault(reason)` (R13): the step ends in the state before it, `s`, with the sticky mark set; everything else is
as it was before the step (R202). There is no vector, no saved register and no return (R200, R207, R208). -/
def raiseFault (r : Fault) (s : State) : Host.Outcome State Fault Refusal :=
  .next { s with fault := some r }

/-- A refused operation (R88, R202): no meaning, and the sticky refusal mark set. -/
def refuse (r : Refusal) (s : State) : Host.Outcome State Fault Refusal :=
  .next { s with refusal := some r }

/-- A state that takes no further step of any agent (R202). -/
def State.marked (s : State) : Bool := s.fault.isSome || s.refusal.isSome

/-- The fault of a decoding that failed, naming the word (R201). -/
def decodeFault (d : DecodeFault) (w : CommandWord) : Fault :=
  match d with
  | .reservedOpcode => .reservedOpcode w
  | .reservedOperand => .reservedOperand w

/-! ## Agents (spec/20_memory.md R68) -/

/-- The operations agent `a` has still to issue. -/
def Agents.listOf (p : Agents) : Agent → List CommandWord
  | .main => p.main
  | .ticker => p.ticker
  | .host => p.host

/-- Agent `a`'s remaining operations replaced. -/
def Agents.setList (p : Agents) (a : Agent) (l : List CommandWord) : Agents :=
  match a with
  | .main => { p with main := l }
  | .ticker => { p with ticker := l }
  | .host => { p with host := l }

/-- The operation whose turn it is: the first of the list of the agent the schedule names. None where no turn is given or
that agent has nothing left to issue. -/
def Agents.nextOp (p : Agents) : Option (Agent × CommandWord) :=
  match p.schedule with
  | [] => none
  | a :: _ =>
    match p.listOf a with
    | [] => none
    | w :: _ => some (a, w)

/-- The turn is over without an operation. -/
def Agents.pass (p : Agents) : Agents := { p with schedule := p.schedule.tail }

/-- Agent `a` has issued its first operation, and its turn is over. -/
def Agents.issued (p : Agents) (a : Agent) : Agents :=
  (p.setList a (p.listOf a).tail).pass

/-- The operation of agent `a` put before everything else. -/
def Agents.issueNext (p : Agents) (a : Agent) (w : CommandWord) : Agents :=
  { p.setList a (w :: p.listOf a) with schedule := a :: p.schedule }

/-- Every agent has issued all of its operations (R216: then the run ends). -/
def Agents.ended (p : Agents) : Bool := p.main.isEmpty && p.ticker.isEmpty && p.host.isEmpty

/-- The lists and turns of one total order of operations (R68): each agent's list is its own operations in that order. -/
def Agents.ofOrder : List (Agent × CommandWord) → Agents
  | [] => Agents.idle
  | (a, w) :: rest => (Agents.ofOrder rest).issueNext a w

/-- The operation has been issued, unless it raised a mark: then all is left as it was before the step (R202; log 5). -/
def State.retire (a : Agent) (s : State) : State :=
  if s.marked then s else { s with agents := s.agents.issued a }

end Sys2Proof.Machine
end

