-- ==== Sys2Proof/Machine/Operands.lean ====
section
/-!
DEFINITION. How a mapper's operand x selects a table entry (spec/40_frequency_mapper.md R101-R103), with the bounds of R108
as the proofs the lookups need. The other operands are whole fields of the command word (Sys2Proof/Decode.lean, R82).
-/

namespace Sys2Proof.Machine

/-- `i = x[5:0]`: the antilog index, 0..63 (R101). -/
def antilogIndex (x : Reading) : Nat := (x.extractLsb' 0 6).toNat

/-- `sh = x[9:6]`: the octave divider, 0..15 (R101). -/
def octaveShift (x : Reading) : Nat := (x.extractLsb' 6 4).toNat

/-- `xi = 1023 - x`: the inverted input (R102, R103). -/
def inverted (x : Reading) : Nat := 1023 - x.toNat

/-- `i = xi div CHROM_DIV` (R102). -/
def chromIndex (x : Reading) : Nat := inverted x / chromDiv

/-- `i = xi div PENTA_DIV` (R103). -/
def pentaIndex (x : Reading) : Nat := inverted x / pentaDiv

/-- R108. -/
theorem antilogIndex_lt (x : Reading) : antilogIndex x < antilogLen :=
  (x.extractLsb' 0 6).isLt

/-- R108. -/
theorem chromIndex_lt (x : Reading) : chromIndex x < chromLen := by
  unfold chromIndex inverted chromDiv chromLen; omega

/-- R108. -/
theorem pentaIndex_lt (x : Reading) : pentaIndex x < pentaLen := by
  unfold pentaIndex inverted pentaDiv pentaLen; omega

/-- `ANTILOG[i] >> sh` (R101). -/
def logIncrement (c : Config) (x : Reading) : Half :=
  c.antilog[antilogIndex x]'(antilogIndex_lt x) >>> octaveShift x

/-- `CHROM[i]` (R102). -/
def chromIncrement (c : Config) (x : Reading) : Half :=
  c.chrom[chromIndex x]'(chromIndex_lt x)

/-- `PENTA[i]` (R103). -/
def pentaIncrement (c : Config) (x : Reading) : Half :=
  c.penta[pentaIndex x]'(pentaIndex_lt x)

end Sys2Proof.Machine
end

