-- ==== Sys2Proof/Machine/Flags.lean ====
section
/-!
DEFINITION. The block has no condition codes or flags (spec/10_state.md R40). What stands in their place: the retrigger
condition r, a value internal to one tick, and the status line's two writes (spec/41_grain_oscillator.md R121, R122;
spec/42_echo_delay_line.md R154).
-/

namespace Sys2Proof.Machine

/-- r of stage S1 (R121): the new `sync_acc` is numerically less than the increment just added. -/
def wrapped (newAcc inc : Half) : Bool := decide (newAcc.toNat < inc.toNat)

/-- `status <- 1 - status ; emit Status(status)` (R122). -/
def State.toggleStatus (i : Instr) (s : State) : State :=
  { s with status := !s.status }.emit i (.status (!s.status))

/-- `status <- e ; emit Status(e)` (R154). -/
def State.setStatus (i : Instr) (e : Bool) (s : State) : State :=
  { s with status := e }.emit i (.status e)

end Sys2Proof.Machine
end

