-- ==== Sys2Proof/Machine/Mapper.lean ====
section
/-!
DEFINITION. The three mapper operations (spec/40_frequency_mapper.md R100-R103): pure functions of the operand and the
tables, which return their result to the issuing agent as the event `MapResult(v)` and write no register.
-/

namespace Sys2Proof.Machine

/-- `emit MapResult(v)` and nothing else (R100). -/
def returnResult (i : Instr) (v : Half) (s : State) : Host.Outcome State Fault Refusal :=
  .next (s.emit i (.mapResult v))

/-- MAP_LOG (R101). -/
def execMapLog (x : Reading) (s : State) : Host.Outcome State Fault Refusal :=
  returnResult (.mapLog x) (logIncrement s.cfg x) s

/-- MAP_CHROM (R102). -/
def execMapChrom (x : Reading) (s : State) : Host.Outcome State Fault Refusal :=
  returnResult (.mapChrom x) (chromIncrement s.cfg x) s

/-- MAP_PENTA (R103). -/
def execMapPenta (x : Reading) (s : State) : Host.Outcome State Fault Refusal :=
  returnResult (.mapPenta x) (pentaIncrement s.cfg x) s

end Sys2Proof.Machine
end

