-- ==== Sys2Proof/Machine/Params.lean ====
section
/-!
DEFINITION. The five parameter writes (spec/43_parameter_interface.md R170-R174). Each changes its one register and nothing
else (spec/10_state.md R35), emits nothing and raises nothing.
-/

namespace Sys2Proof.Machine

/-- WR_SYNC_INC (R170): `sync_inc <- imm16`. -/
def execWrSyncInc (imm16 : Half) (s : State) : Host.Outcome State Fault Refusal :=
  .next { s with syncInc := imm16 }

/-- Grain k's increment register written. -/
def writeInc (k : GrainId) (v : Half) (s : State) : State :=
  s.setGrain k { s.grain k with inc := v }

/-- Grain k's decay register written. -/
def writeDec (k : GrainId) (v : Byte) (s : State) : State :=
  s.setGrain k { s.grain k with dec := v }

/-- WR_G1_INC (R171): `g_inc[1] <- imm16`. -/
def execWrG1Inc (imm16 : Half) (s : State) : Host.Outcome State Fault Refusal :=
  .next (writeInc .one imm16 s)

/-- WR_G1_DEC (R172): `g_dec[1] <- w[7:0]`. -/
def execWrG1Dec (imm8 : Byte) (s : State) : Host.Outcome State Fault Refusal :=
  .next (writeDec .one imm8 s)

/-- WR_G2_INC (R173): `g_inc[2] <- imm16`. -/
def execWrG2Inc (imm16 : Half) (s : State) : Host.Outcome State Fault Refusal :=
  .next (writeInc .two imm16 s)

/-- WR_G2_DEC (R174): `g_dec[2] <- w[7:0]`. -/
def execWrG2Dec (imm8 : Byte) (s : State) : Host.Outcome State Fault Refusal :=
  .next (writeDec .two imm8 s)

end Sys2Proof.Machine
end

