-- ==== Sys2Proof/Machine/Reset.lean ====
section
/-!
DEFINITION. RESET (spec/70_reset_and_hazards.md R231).
-/

namespace Sys2Proof.Machine

/-- RESET (R231): every register to its R30 value, the delay RAM as it was, no event; the marks, the observation, the
agents' lists and the parameters are not the block's registers and stay. -/
def execReset (s : State) : Host.Outcome State Fault Refusal :=
  .next { s with
    syncAcc := 0
    syncInc := 0
    g1 := Grain.zero
    g2 := Grain.zero
    cursor := 0
    outReg := 0
    status := false }

end Sys2Proof.Machine
end

