-- ==== Sys2Proof/Machine/Tick.lean ====
section
/-!
DEFINITION. TICK, one sample (spec/41_grain_oscillator.md R120): stages S1-S6 of R121-R126 and stages S7-S8 of
spec/42_echo_delay_line.md R150-R154, each a function of its own, run in the written order, each reading what earlier
stages wrote (spec/00_scope.md R13).
-/

namespace Sys2Proof.Machine

/-! ## Stages S1-S3 -/

/-- S1 (R121): `sync_acc <- sync_acc +_16 sync_inc`. -/
def syncAdvance (s : State) : State := { s with syncAcc := s.syncAcc + s.syncInc }

/-- What a retrigger does to one grain (R122): phase to 0, amplitude to 0x7FFF. -/
def Grain.restart (g : Grain) : Grain := { g with acc := 0, amp := ampMax }

/-- S2 (R122): on a retrigger, restart both grains and toggle the status line. -/
def retrigger (i : Instr) (r : Bool) (s : State) : State :=
  if r then (s.mapGrains Grain.restart).toggleStatus i else s

/-- One grain of S3 (R123): `g_acc[k] <- g_acc[k] +_16 g_inc[k]`. -/
def Grain.advance (g : Grain) : Grain := { g with acc := g.acc + g.inc }

/-- S1, S2 and S3: r compares the new `sync_acc` with the increment just added. -/
def oscillatorStages (i : Instr) (s : State) : State :=
  let s1 := syncAdvance s
  (retrigger i (wrapped s1.syncAcc s1.syncInc) s1).mapGrains Grain.advance

/-! ## Stages S4-S6 -/

/-- m[k] of S4 (R124): eight bits of the accumulator from bit `TRI_LSB` up, complemented where bit 15 is set. -/
def Grain.magnitude (t : TriLsb) (g : Grain) : Byte :=
  let v : Byte := (g.acc >>> t.bit).setWidth 8
  if g.acc.msb then ~~~v else v

/-- `g_amp[k] >> 8` (R124). -/
def Grain.weight (g : Grain) : Nat := g.amp.toNat >>> 8

/-- p[k] of S4, an exact product (R12, R124). -/
def Grain.product (t : TriLsb) (g : Grain) : Nat := (g.magnitude t).toNat * g.weight

/-- S4 (R124): `sum = p[1] + p[2]`, exact; R132 shows that it fits `SUM_W` = 16 bits (log 16). -/
def grainSum (s : State) : Nat := s.g1.product s.cfg.triLsb + s.g2.product s.cfg.triLsb

/-- One grain of S5 (R125): `g_amp[k] -! (g_amp[k] >> 8) * g_dec[k]`. -/
def Grain.decay (g : Grain) : Option Grain :=
  (subExact g.amp.toNat (g.weight * g.dec.toNat)).map fun a => { g with amp := BitVec.ofNat 15 a }

/-- S5 (R125), grain 1 and then grain 2; none where `-!` would go below 0. -/
def decayGrains (s : State) : Option State :=
  match s.g1.decay with
  | none => none
  | some h1 =>
    match s.g2.decay with
    | none => none
    | some h2 => some { s with g1 := h1, g2 := h2 }

/-- S6 (R126): `sample = min(sum >> OUT_SHIFT, 255)`. -/
def scaleSample (shift sum : Nat) : Byte := BitVec.ofNat 8 (min (sum >>> shift) 255)

/-! ## Stages S7-S8 -/

/-- `(sample + old) >> 1` of the exact sum: the mean, rounded down (R150). -/
def echoMean (sample old : Byte) : Byte := BitVec.ofNat 8 ((sample.toNat + old.toNat) >>> 1)

/-- The cursor's advance with its wrap by an exact-equality check (R152). -/
def advanceCursor (c : Half) : Half :=
  if (c + 1).toNat = delayLen then 0 else c + 1

/-- S7 (R150, R151): the output byte y, and the state with the cell rewritten and the cursor advanced where e = 1; none
where the delay RAM's access raises (R159). -/
def echoStage (e : Bool) (sample : Byte) (s : State) : Option (Byte × State) :=
  if e then
    match memRead s.delay s.cursor.toNat with
    | none => none
    | some old =>
      let y := echoMean sample old
      match memWrite s.delay s.cursor.toNat y with
      | none => none
      | some d => some (y, { s with delay := d, cursor := advanceCursor s.cursor })
  else some (sample, s)

/-- `out_reg <- y ; emit Out(y)` (R153). -/
def State.setOut (i : Instr) (y : Byte) (s : State) : State :=
  { s with outReg := y }.emit i (.out y)

/-- S8: the output register (R153) and the status line (R154), in the order of this instance (log 12). -/
def outputStage (i : Instr) (e : Bool) (y : Byte) (s : State) : State :=
  match s.cfg.s8Order with
  | .outFirst => (s.setOut i y).setStatus i e
  | .statusFirst => (s.setStatus i e).setOut i y

/-! ## The operation -/

/-- TICK e (R120). A fault is raised from the state before the tick (R159, R202), S5's before S7's (R206). -/
def execTick (e : Bool) (s : State) : Host.Outcome State Fault Refusal :=
  let s3 := oscillatorStages (.tick e) s
  match decayGrains s3 with
  | none => raiseFault (.decayUnderflow (.tick e)) s
  | some s5 =>
    match echoStage e (scaleSample s3.cfg.outShift (grainSum s3)) s5 with
    | none => raiseFault (.cursorOutOfRange (.tick e)) s
    | some (y, s7) => .next (outputStage (.tick e) e y s7)

end Sys2Proof.Machine
end

