-- ==== Sys2Proof/Machine/Dispatch.lean ====
section
/-!
DEFINITION. One arm per operation: its meaning.
-/

namespace Sys2Proof.Machine

-- The effect of one operation, issued by the agent that may issue it (R88 is checked by the step).
def exec (i : Instr) (s : State) : Host.Outcome State Fault Refusal :=
  match i with
  | .wrSyncInc imm16 => Sys2Proof.Machine.execWrSyncInc imm16 s
  | .wrG1Inc imm16 => Sys2Proof.Machine.execWrG1Inc imm16 s
  | .wrG1Dec imm8 => Sys2Proof.Machine.execWrG1Dec imm8 s
  | .wrG2Inc imm16 => Sys2Proof.Machine.execWrG2Inc imm16 s
  | .wrG2Dec imm8 => Sys2Proof.Machine.execWrG2Dec imm8 s
  | .tick e => Sys2Proof.Machine.execTick e s
  | .mapLog x => Sys2Proof.Machine.execMapLog x s
  | .mapChrom x => Sys2Proof.Machine.execMapChrom x s
  | .mapPenta x => Sys2Proof.Machine.execMapPenta x s
  | .reset => Sys2Proof.Machine.execReset s

end Sys2Proof.Machine
end

