-- ==== Sys2Proof/Machine/Step.lean ====
section
/-!
DEFINITION. One step of the machine: one whole operation of one agent, atomically (spec/00_scope.md R6; spec/20_memory.md
R68), and how the host places an operation as the next one. The block fetches nothing (R72): an operation comes from the
list of the agent whose turn it is.
-/

namespace Sys2Proof.Machine

/-- The operation of agent `a` with command word `w`, in a state without marks: decoding faults come first (R206), then the
issuing agent is checked (R88; log 6), then the operation runs, and it has been issued unless it raised a mark. -/
def stepOp (a : Agent) (w : CommandWord) (s : State) : Host.Outcome State Fault Refusal :=
  match decode w with
  | .error d => raiseFault (decodeFault d w) s
  | .ok i =>
    if i.agent = a then
      match exec i s with
      | .next t => .next (t.retire a)
      | .fault r => .fault r
      | .refused r => .refused r
    else refuse (.wrongAgent a i) s

/-- One step. A marked state takes no step of any agent and keeps its reason (R202). A state in which no agent has a turn,
or in which that agent has nothing left to issue, waits: only the turn passes (R232, R215; log 2). -/
def step (s : State) : Host.Outcome State Fault Refusal :=
  match s.fault with
  | some r => .fault r
  | none =>
    match s.refusal with
    | some r => .refused r
    | none =>
      match s.agents.nextOp with
      | none => .next { s with agents := s.agents.pass }
      | some (a, w) => stepOp a w s

/-- The agent that issues word `w` where no agent is named: R83's agent column (R86). A reserved encoding has none and
faults whoever issues it; the model takes MAIN (log 14). -/
def issuerOf (w : CommandWord) : Agent :=
  match decode w with
  | .ok i => i.agent
  | .error _ => .main

/-- `s` with the command word given as the next operation of the agent that may issue it, whose turn comes next. Nothing of
the block changes. A number that is no 20-bit word changes nothing (log 13). -/
def State.withFetchWord (s : State) (nbits w : Nat) : State :=
  match tableWord nbits w with
  | none => s
  | some cw => { s with agents := s.agents.issueNext (issuerOf cw) cw }

end Sys2Proof.Machine
end

