-- ==== Sys2Proof/Machine/Assembler.lean ====
section
/-!
DEFINITION. The assembler of spec/30_encoding.md R86 and R87: from a line's text to its operations, their command words and
the agent that issues them. A line is read as a list of characters. What R86 leaves open of the text (which characters
separate, what a malformed line gives) is log 17.
-/

namespace Sys2Proof.Machine

/-! ## Operations of a line -/

/-- The operations a line's operation stands for, in order: itself, or a pseudo-instruction's expansion (R87). None where an
operand is out of its range, an assembly error (R86). -/
def expand (o : AsmOp) : Option (List Instr) :=
  if o.wellFormed then
    some (match o with
      | .wrSync n => [.wrSyncInc (BitVec.ofNat 16 n)]
      | .wrG1Inc n => [.wrG1Inc (BitVec.ofNat 16 n)]
      | .wrG1Dec n => [.wrG1Dec (BitVec.ofNat 8 n)]
      | .wrG2Inc n => [.wrG2Inc (BitVec.ofNat 16 n)]
      | .wrG2Dec n => [.wrG2Dec (BitVec.ofNat 8 n)]
      | .tick e => [.tick (e == 1)]
      | .mapLog x => [.mapLog (BitVec.ofNat 10 x)]
      | .mapChrom x => [.mapChrom (BitVec.ofNat 10 x)]
      | .mapPent x => [.mapPenta (BitVec.ofNat 10 x)]
      | .reset => [.reset]
      | .wrParams a b c d f =>
        [.wrSyncInc (BitVec.ofNat 16 a), .wrG1Inc (BitVec.ofNat 16 b), .wrG1Dec (BitVec.ofNat 8 c),
          .wrG2Inc (BitVec.ofNat 16 d), .wrG2Dec (BitVec.ofNat 8 f)]
      | .ticks n e => List.replicate n (.tick (e == 1))
      | .wrVoice1 inc dec => [.wrG1Inc (BitVec.ofNat 16 inc), .wrG1Dec (BitVec.ofNat 8 dec)]
      | .wrVoice2 inc dec => [.wrG2Inc (BitVec.ofNat 16 inc), .wrG2Dec (BitVec.ofNat 8 dec)])
  else none

/-- A line's operations with the agent that issues them: the prefix's, or R83's agent column (R86). -/
def assembleLine (l : AsmLine) : Option (List (Agent × CommandWord)) :=
  (expand l.op).map fun is => is.map fun i => (l.agent.getD i.agent, encode i)

/-- A listing's operations in its order, one total order of R68. -/
def assemble : List AsmLine → Option (List (Agent × CommandWord))
  | [] => some []
  | l :: ls =>
    match assembleLine l, assemble ls with
    | some ops, some rest => some (ops ++ rest)
    | _, _ => none

/-! ## The text of a line -/

/-- `;` starts a comment (R86). -/
def stripComment (cs : List Char) : List Char := cs.takeWhile (· != ';')

/-- The words of a line: blanks and commas separate, and a colon ends the word it belongs to (log 17). The first argument is
the word read so far, reversed. -/
def wordsOf : List Char → List Char → List (List Char)
  | [], [] => []
  | w, [] => [w.reverse]
  | w, c :: cs =>
    if c = ' ' ∨ c = '\t' ∨ c = ',' then
      if w.isEmpty then wordsOf [] cs else w.reverse :: wordsOf [] cs
    else if c = ':' then (c :: w).reverse :: wordsOf [] cs
    else wordsOf (c :: w) cs

/-- The value of a digit in base 10 or 16. -/
def digitValue (base : Nat) (c : Char) : Option Nat :=
  let v :=
    if '0' ≤ c ∧ c ≤ '9' then c.toNat - '0'.toNat
    else if 'a' ≤ c ∧ c ≤ 'f' then c.toNat - 'a'.toNat + 10
    else if 'A' ≤ c ∧ c ≤ 'F' then c.toNat - 'A'.toNat + 10
    else base
  if v < base then some v else none

/-- The number whose remaining digits are given, after the value read so far. -/
def digitsFrom (base : Nat) : Nat → List Char → Option Nat
  | n, [] => some n
  | n, c :: cs =>
    match digitValue base c with
    | none => none
    | some v => digitsFrom base (base * n + v) cs

/-- "Numbers are decimal or `0x` hexadecimal" (R86). -/
def parseNumber : List Char → Option Nat
  | '0' :: 'x' :: c :: cs => digitsFrom 16 0 (c :: cs)
  | c :: cs => digitsFrom 10 0 (c :: cs)
  | [] => none

/-- All the operands of a line. -/
def parseNumbers : List (List Char) → Option (List Nat)
  | [] => some []
  | w :: ws =>
    match parseNumber w, parseNumbers ws with
    | some n, some ns => some (n :: ns)
    | _, _ => none

/-- The syntax column of R86 and the pseudo column of R87, by name and number of operands. -/
def mkOp (name : List Char) (ns : List Nat) : Option AsmOp :=
  match ns with
  | [] => if name = "reset".toList then some .reset else none
  | [n] =>
    if name = "wr.sync".toList then some (.wrSync n)
    else if name = "wr.g1inc".toList then some (.wrG1Inc n)
    else if name = "wr.g1dec".toList then some (.wrG1Dec n)
    else if name = "wr.g2inc".toList then some (.wrG2Inc n)
    else if name = "wr.g2dec".toList then some (.wrG2Dec n)
    else if name = "tick".toList then some (.tick n)
    else if name = "map.log".toList then some (.mapLog n)
    else if name = "map.chrom".toList then some (.mapChrom n)
    else if name = "map.pent".toList then some (.mapPent n)
    else none
  | [a, b] =>
    if name = "ticks".toList then some (.ticks a b)
    else if name = "wr.voice1".toList then some (.wrVoice1 a b)
    else if name = "wr.voice2".toList then some (.wrVoice2 a b)
    else none
  | [a, b, c, d, f] => if name = "wr.params".toList then some (.wrParams a b c d f) else none
  | _ => none

/-- An operation with its operands. -/
def parseOp : List (List Char) → Option AsmOp
  | [] => none
  | name :: args =>
    match parseNumbers args with
    | none => none
    | some ns => mkOp name ns

/-- The agent prefixes of R86. -/
def agentPrefix (w : List Char) : Option Agent :=
  if w = "main:".toList then some .main
  else if w = "tick:".toList then some .ticker
  else if w = "host:".toList then some .host
  else none

/-- One line. None is an assembly error; an empty list, a line without an operation. -/
def parseLine (cs : List Char) : Option (List AsmLine) :=
  match wordsOf [] (stripComment cs) with
  | [] => some []
  | w :: ws =>
    match agentPrefix w with
    | some a => (parseOp ws).map fun o => [⟨some a, o⟩]
    | none => (parseOp (w :: ws)).map fun o => [⟨none, o⟩]

/-- A listing, one line a member. -/
def parseListing : List (List Char) → Option (List AsmLine)
  | [] => some []
  | l :: ls =>
    match parseLine l, parseListing ls with
    | some x, some xs => some (x ++ xs)
    | _, _ => none

/-- The operations of a listing's text, in its order. -/
def assembleText (ls : List (List Char)) : Option (List (Agent × CommandWord)) :=
  match parseListing ls with
  | none => none
  | some x => assemble x

end Sys2Proof.Machine
end

