-- ==== Sys2Proof/Safety.lean ====
section
/-!
DEFINITION. The terms the claims are stated in: the spec's formulas over natural numbers (written from the rules'
pseudocode, independently of the machine's bit-vector code), runs, and what a safe and a good state is.
-/

namespace Sys2Proof.Machine

/-! ## The spec's formulas of one tick (R121-R126, R150), on naturals (R11, R12) -/

/-- S1's add carries out of bit 15 (R128). -/
abbrev State.carries (s : State) : Prop := 65536 ≤ s.syncAcc.toNat + s.syncInc.toNat

/-- `g_acc[k]` after S3 (R122, R123). -/
def State.accAfter (s : State) (k : GrainId) : Nat :=
  ((if s.carries then 0 else (s.grain k).acc.toNat) + (s.grain k).inc.toNat) % 65536

/-- `g_amp[k]` after S2, the amplitude that S4 weights with (R122, R124). -/
def State.ampHeard (s : State) (k : GrainId) : Nat :=
  if s.carries then 0x7FFF else (s.grain k).amp.toNat

/-- `g_amp[k]` after S5 (R125), by an exact subtraction. -/
def State.ampAfter (s : State) (k : GrainId) : Nat :=
  s.ampHeard k - s.ampHeard k / 256 * (s.grain k).dec.toNat

/-- m[k] of S4 (R124) for the accumulator value a and `TRI_LSB` = lsb. -/
def triangleOf (lsb a : Nat) : Nat :=
  if a / 32768 % 2 = 1 then 255 - a / 2 ^ lsb % 256 else a / 2 ^ lsb % 256

/-- `sum` of S4 (R124). -/
def State.sumOf (s : State) : Nat :=
  triangleOf s.cfg.triLsb.bit (s.accAfter .one) * (s.ampHeard .one / 256)
    + triangleOf s.cfg.triLsb.bit (s.accAfter .two) * (s.ampHeard .two / 256)

/-- `sample` of S6 (R126). -/
def State.sampleOf (s : State) : Nat := min (s.sumOf / 2 ^ s.cfg.outShift.val) 255

/-- y of S7 (R150, R151): the byte that goes out. -/
def State.byteOf (s : State) (e : Bool) : Nat :=
  if e then (s.sampleOf + (s.delay.get s.cursor.toNat).toNat) / 2 else s.sampleOf

/-! ## Observation (R216) -/

/-- The values driven on the status line, oldest first. -/
def statusEvents (l : List Event) : List Bool :=
  l.filterMap fun e => match e.kind with
    | .status b => some b
    | _ => none

/-- The values driven on the output register, oldest first. -/
def outEvents (l : List Event) : List Byte :=
  l.filterMap fun e => match e.kind with
    | .out v => some v
    | _ => none

/-- The mapper results, oldest first. -/
def resultEvents (l : List Event) : List Half :=
  l.filterMap fun e => match e.kind with
    | .mapResult v => some v
    | _ => none

/-! ## Runs -/

/-- `n` steps, stopping where a step stops. -/
def stepN : Nat → State → Host.Outcome State Fault Refusal
  | 0, s => .next s
  | n + 1, s =>
    match step s with
    | .next t => stepN n t
    | .fault r => .fault r
    | .refused r => .refused r

/-- The operations of a list, one after the other, each answering an unmarked next state; none where one does not. -/
def execAll : List Instr → State → Option State
  | [], s => some s
  | i :: is, s =>
    match exec i s with
    | .next t => if t.marked then none else execAll is t
    | _ => none

/-- The ticks of a list of echo-enable inputs. -/
def tickAll (es : List Bool) (s : State) : Option State := execAll (es.map Instr.tick) s

/-- Every operation an agent has still to issue is one that it may issue (R88): the block's contract. -/
def Agents.lawful (p : Agents) : Bool :=
  p.main.all (wordFor .main) && p.ticker.all (wordFor .ticker) && p.host.all (wordFor .host)

/-! ## Safe and good states -/

/-- A fault mark that a reachable state can carry: none, or one that decoding raised (R201's last column). -/
def faultReachable : Option Fault → Bool
  | none => true
  | some (.reservedOpcode _) => true
  | some (.reservedOperand _) => true
  | some (.cursorOutOfRange _) => false
  | some (.decayUnderflow _) => false

/-- The invariant (R37, R43, R201): the delay RAM's list is in canonical form, the cursor is a cell, and no fault mark came
from inside a TICK. -/
def State.Inv (s : State) : Prop :=
  s.delay.wf = true ∧ s.cursor.toNat < delayLen ∧ faultReachable s.fault = true

/-- A state in which a run ends well (R216): every agent has issued all of its operations, and no mark is set. -/
def State.good (s : State) : Bool := s.agents.ended && !s.marked

/-- A silent block (R234): no retrigger can come and both amplitudes are 0. -/
def State.silent (s : State) : Prop := s.syncInc = 0 ∧ s.g1.amp = 0 ∧ s.g2.amp = 0

/-- The next operation is MAIN's write of a nonzero `sync_inc`, which ends the silence (R234). -/
def State.startsSync (s : State) : Prop :=
  ∃ w v, s.agents.nextOp = some (.main, w) ∧ decode w = .ok (.wrSyncInc v) ∧ v ≠ 0

end Sys2Proof.Machine

namespace Sys2Proof

/-- The conditions of R104 on the tables: in pitch order. -/
def Config.pitchOrdered (c : Config) : Prop :=
  (∀ i j, i ≤ j → j < antilogLen → (c.antilog.toList.getD j 0).toNat ≤ (c.antilog.toList.getD i 0).toNat) ∧
  (c.antilog.toList.getD 0 0).toNat / 2 ≤ (c.antilog.toList.getD 63 0).toNat ∧
  (∀ i j, i ≤ j → j < chromLen → (c.chrom.toList.getD i 0).toNat ≤ (c.chrom.toList.getD j 0).toNat) ∧
  (∀ i j, i ≤ j → j < pentaLen → (c.penta.toList.getD i 0).toNat ≤ (c.penta.toList.getD j 0).toNat)

end Sys2Proof
end

