-- ==== Sys2Proof/Certificates/Slice0/Obligations.lean ====
section
/-!
DEFINITION. The statements for the provers. The formulas on naturals that they compare the machine with are in
Sys2Proof/Safety.lean, written from the rules' pseudocode.
-/

open Sys2Proof Sys2Proof.Machine

/-! ## Encoding (spec/30_encoding.md) -/

/-- Every operation, with every operand, is read back from the word that encodes it (R81, R83, R86). -/
def Obligations.DecodeOfEncodeIsTheOperation : Prop :=
  ∀ i : Instr, decode (encode i) = .ok i

/-- A word that decodes is the encoding of its operation, but for the ignored bits w[15:8] of a `W8` word (R81, R82, R84),
where the encoder writes 0 (log 18, deduced from R86). -/
def Obligations.EncodeOfDecodeIsTheWordLessIgnoredBits : Prop :=
  ∀ (w : CommandWord) (i : Instr), decode w = .ok i →
    encode i = if opField w = 0x3 ∨ opField w = 0x5 then w &&& 0xF00FF else w

/-- R83: a word that selects a row decodes to that row's operation, of that row's agent; any other word is rejected. -/
def Obligations.DecodeFollowsTheOpcodeMap : Prop :=
  ∀ w : CommandWord,
    (∀ r ∈ opRows, w &&& r.mask = r.pattern →
      ∃ i, decode w = .ok i ∧ i.mnemonic = r.mnemonic ∧ i.agent = r.agent) ∧
    ((∀ r ∈ opRows, w &&& r.mask ≠ r.pattern) → ∃ d, decode w = .error d)

/-- R82: each operand is its field of the word, zero-extended. -/
def Obligations.OperandsAreTheirFields : Prop :=
  ∀ (w : CommandWord) (i : Instr), decode w = .ok i →
    match i with
    | .wrSyncInc v | .wrG1Inc v | .wrG2Inc v => v.toNat = w.toNat % 65536
    | .wrG1Dec v | .wrG2Dec v => v.toNat = w.toNat % 256
    | .tick e => (e = true ↔ w.toNat % 2 = 1)
    | .mapLog x | .mapChrom x | .mapPenta x => x.toNat = w.toNat % 1024
    | .reset => w.toNat = 0xF0000

/-- R84: the reserved encodings, by their kinds, and what the machine does with one: it raises the fault and changes no
other state. The ignored bits of a `W8` word are not reserved. -/
def Obligations.ReservedEncodingsRaiseTheirFault : Prop :=
  (∀ w : CommandWord,
    (w.toNat / 65536 ∈ [0x0, 0x6, 0x7, 0xC, 0xD, 0xE] → decode w = .error .reservedOpcode) ∧
    (w.toNat / 65536 = 0x8 → w.toNat % 65536 / 2 ≠ 0 → decode w = .error .reservedOperand) ∧
    (w.toNat / 65536 ∈ [0x9, 0xA, 0xB] → w.toNat % 65536 / 1024 ≠ 0 → decode w = .error .reservedOperand) ∧
    (w.toNat / 65536 = 0xF → w.toNat % 65536 ≠ 0 → decode w = .error .reservedOperand) ∧
    (w.toNat / 65536 ∈ [0x3, 0x5] → decode w = decode (w &&& 0xF00FF) ∧ ∃ i, decode w = .ok i)) ∧
  (∀ (s : State) (a : Agent) (w : CommandWord), s.marked = false → s.agents.nextOp = some (a, w) →
    (decode w = .error .reservedOpcode → step s = .next { s with fault := some (.reservedOpcode w) }) ∧
    (decode w = .error .reservedOperand → step s = .next { s with fault := some (.reservedOperand w) }))

/-- Words written out from the formats of R81 (the vectors of spec/95 §2.1). -/
def Obligations.WrittenOutWordsDecode : Prop :=
  decode 0x18000 = .ok (.wrSyncInc 0x8000) ∧ decode 0x21000 = .ok (.wrG1Inc 0x1000) ∧
  decode 0x30155 = .ok (.wrG1Dec 0x55) ∧ decode 0x40800 = .ok (.wrG2Inc 0x0800) ∧
  decode 0x50100 = .ok (.wrG2Dec 0) ∧ decode 0x80001 = .ok (.tick true) ∧ decode 0x903FF = .ok (.mapLog 1023) ∧
  decode 0xA0008 = .ok (.mapChrom 8) ∧ decode 0xB03FF = .ok (.mapPenta 1023) ∧ decode 0xF0000 = .ok .reset ∧
  decode 0x80002 = .error .reservedOperand ∧ decode 0x61234 = .error .reservedOpcode

/-! ## Parameter writes (spec/43_parameter_interface.md) -/

/-- R170-R174, R35: each write completes in every state and changes its one register, and nothing else of the state. -/
def Obligations.ParameterWritesChangeTheirRegisterAlone : Prop :=
  ∀ (s : State) (v : Half) (d : Byte),
    exec (.wrSyncInc v) s = .next { s with syncInc := v } ∧
    exec (.wrG1Inc v) s = .next { s with g1 := { s.g1 with inc := v } } ∧
    exec (.wrG1Dec d) s = .next { s with g1 := { s.g1 with dec := d } } ∧
    exec (.wrG2Inc v) s = .next { s with g2 := { s.g2 with inc := v } } ∧
    exec (.wrG2Dec d) s = .next { s with g2 := { s.g2 with dec := d } }

/-- R65: a write or a RESET done twice is as once; a mapper operation changes no state but the observation; a TICK done
twice need not be as once. -/
def Obligations.WritesAndResetAreIdempotent : Prop :=
  (∀ (i : Instr) (s : State),
    match i with
    | .wrSyncInc _ | .wrG1Inc _ | .wrG1Dec _ | .wrG2Inc _ | .wrG2Dec _ | .reset =>
      ∃ t, exec i s = .next t ∧ exec i t = .next t
    | .mapLog _ | .mapChrom _ | .mapPenta _ => ∃ t, exec i s = .next t ∧ { t with events := s.events } = s
    | .tick _ => True) ∧
  (∃ s t u : State, exec (.tick false) s = .next t ∧ exec (.tick false) t = .next u ∧ t.syncAcc ≠ u.syncAcc)

/-! ## Frequency mapper (spec/40_frequency_mapper.md) -/

/-- R100-R103: each map completes in every state, emits the table entry its rule selects, and changes nothing else. -/
def Obligations.MapsReturnTheirTableEntry : Prop :=
  ∀ (s : State) (x : Reading),
    (∃ v : Half, exec (.mapLog x) s = .next { s with events := s.events ++ [⟨.mapLog x, .mapResult v⟩] } ∧
      v.toNat = (s.cfg.antilog.toList.getD (x.toNat % 64) 0).toNat / 2 ^ (x.toNat / 64)) ∧
    exec (.mapChrom x) s = .next { s with events := s.events ++
      [⟨.mapChrom x, .mapResult (s.cfg.chrom.toList.getD ((1023 - x.toNat) / 8) 0)⟩] } ∧
    exec (.mapPenta x) s = .next { s with events := s.events ++
      [⟨.mapPenta x, .mapResult (s.cfg.penta.toList.getD ((1023 - x.toNat) / 19) 0)⟩] }

/-- R104: with tables in pitch order, the increment a map returns never rises as the reading does. -/
def Obligations.MapsNeverRiseWithTheReading : Prop :=
  ∀ (s : State) (x y : Reading), s.cfg.pitchOrdered → x.toNat ≤ y.toNat →
    ∀ mk ∈ [Instr.mapLog, Instr.mapChrom, Instr.mapPenta],
      ∃ v w : Half,
        exec (mk x) s = .next { s with events := s.events ++ [⟨mk x, .mapResult v⟩] } ∧
        exec (mk y) s = .next { s with events := s.events ++ [⟨mk y, .mapResult w⟩] } ∧
        w.toNat ≤ v.toNat

/-- R104: the default tables are in pitch order, and each map's lowest and highest reading use the entries the rule says.
The tables are the spec's defaults, no claim about the chip (log 7). -/
def Obligations.DefaultTablesArePitchOrdered : Prop :=
  defaultConfig.pitchOrdered ∧
  chromIndex 1023 = 0 ∧ pentaIndex 1023 = 0 ∧ chromIndex 0 = 127 ∧ pentaIndex 0 = 53 ∧
  antilogIndex 1023 = 63 ∧ antilogIndex 0 = 0

/-- R108: the indexes as the rule writes them are within the tables, of every instance. -/
def Obligations.MapIndexesStayInTheTables : Prop :=
  ∀ (c : Config) (x : Reading),
    antilogIndex x = x.toNat % 64 ∧ antilogIndex x < c.antilog.toList.length ∧
    chromIndex x = (1023 - x.toNat) >>> 3 ∧ chromIndex x < c.chrom.toList.length ∧
    pentaIndex x = (1023 - x.toNat) / 19 ∧ pentaIndex x < c.penta.toList.length ∧
    c.antilog.toList.length = 64 ∧ c.chrom.toList.length = 128 ∧ c.penta.toList.length = 54

/-! ## Grain oscillator (spec/41_grain_oscillator.md) -/

/-- R120-R123, R125: a tick whose delay access is legal completes; the sync accumulator and each grain's accumulator and
amplitude take the values of S1-S3 and S5; no parameter register changes. -/
def Obligations.TickAdvancesAndDecaysTheOscillators : Prop :=
  ∀ (e : Bool) (s : State), (e = true → s.cursor.toNat < 2048) →
    ∃ t, exec (.tick e) s = .next t ∧
      t.syncAcc.toNat = (s.syncAcc.toNat + s.syncInc.toNat) % 65536 ∧
      t.syncInc = s.syncInc ∧
      ∀ k, (t.grain k).acc.toNat = s.accAfter k ∧ (t.grain k).amp.toNat = s.ampAfter k ∧
        (t.grain k).inc = (s.grain k).inc ∧ (t.grain k).dec = (s.grain k).dec

/-- R130: what a retriggering tick leaves, and what it weights with. -/
def Obligations.RetriggeringTickRestartsTheGrains : Prop :=
  ∀ (e : Bool) (s : State), (e = true → s.cursor.toNat < 2048) →
    (s.syncAcc.toNat + s.syncInc.toNat) % 65536 < s.syncInc.toNat →
    ∃ t, exec (.tick e) s = .next t ∧
      ∀ k, (t.grain k).acc = (s.grain k).inc ∧
        (t.grain k).amp.toNat = 0x7FFF - 127 * (s.grain k).dec.toNat ∧
        ((oscillatorStages (.tick e) s).grain k).weight = 127

/-- R122, R128: a tick toggles the status line in S2 exactly where S1's add carries. -/
def Obligations.TickTogglesTheLineExactlyOnCarry : Prop :=
  ∀ (i : Instr) (s : State),
    (oscillatorStages i s).status = (if 65536 ≤ s.syncAcc.toNat + s.syncInc.toNat then !s.status else s.status) ∧
    ((s.syncAcc.toNat + s.syncInc.toNat) % 65536 < s.syncInc.toNat ↔ 65536 ≤ s.syncAcc.toNat + s.syncInc.toNat)

/-- R124: the triangle. With `TRI_LSB` 8 it rises 0..127 and falls 127..0; with 7 it spans 0..255 in the same shape. -/
def Obligations.TriangleRisesAndFalls : Prop :=
  ∀ g : Grain,
    (g.acc.toNat < 32768 → (g.magnitude .eight).toNat = g.acc.toNat / 256) ∧
    (32768 ≤ g.acc.toNat → (g.magnitude .eight).toNat = 127 - (g.acc.toNat - 32768) / 256) ∧
    (g.acc.toNat < 32768 → (g.magnitude .seven).toNat = g.acc.toNat / 128) ∧
    (32768 ≤ g.acc.toNat → (g.magnitude .seven).toNat = 255 - (g.acc.toNat - 32768) / 128)

/-- R132, R133: the sum of S4 and the sample of S6 are the rule's; the sum fits 16 bits; where the clamp of S6 cannot act;
the sample of the default parameters. -/
def Obligations.SumAndSampleStayInRange : Prop :=
  ∀ (i : Instr) (s : State),
    grainSum (oscillatorStages i s) = s.sumOf ∧ s.sumOf ≤ 64770 ∧
    (s.cfg.triLsb = .eight → s.sumOf ≤ 32258) ∧
    (scaleSample s.cfg.outShift (grainSum (oscillatorStages i s))).toNat = s.sampleOf ∧ s.sampleOf ≤ 255 ∧
    (s.cfg.triLsb = .eight → 7 ≤ s.cfg.outShift.val → s.sumOf / 2 ^ s.cfg.outShift.val ≤ 255) ∧
    (s.cfg.triLsb = .seven → 8 ≤ s.cfg.outShift.val → s.sumOf / 2 ^ s.cfg.outShift.val ≤ 255) ∧
    (s.cfg.triLsb = .eight → s.cfg.outShift.val = 9 → s.sampleOf ≤ 63)

/-- R131, in one tick that does not retrigger: the amplitude never rises, stays where the rate is 0 or it is below 256, and
falls otherwise. -/
def Obligations.DecayFallsExactlyFrom256 : Prop :=
  ∀ (e : Bool) (s : State), (e = true → s.cursor.toNat < 2048) → ¬ s.carries →
    ∃ t, exec (.tick e) s = .next t ∧
      ∀ k, (t.grain k).amp.toNat ≤ (s.grain k).amp.toNat ∧
        ((s.grain k).dec = 0 ∨ (s.grain k).amp.toNat < 256 → (t.grain k).amp = (s.grain k).amp) ∧
        (1 ≤ (s.grain k).dec.toNat → 256 ≤ (s.grain k).amp.toNat →
          (t.grain k).amp.toNat < (s.grain k).amp.toNat)

/-- R131: with a constant rate of at least 1 and no retrigger in the run (no carry comes within it, as in PhaseLaw), the
amplitude reaches 0..255, in at most as many ticks as its value, and stays there. -/
def Obligations.DecayReachesBelow256 : Prop :=
  ∀ (es : List Bool) (s : State) (k : GrainId), s.marked = false → s.cursor.toNat < 2048 →
    s.syncAcc.toNat + es.length * s.syncInc.toNat < 65536 → 1 ≤ (s.grain k).dec.toNat → (s.grain k).amp.toNat ≤ es.length →
    ∃ t, tickAll es s = some t ∧ (t.grain k).amp.toNat < 256

/-- R131's figures, of the machine's ticks without a retrigger: from amplitude 0x7FFF, rate 255 gives 382, then 127 for good;
rate 1 gives 256 after 1386 ticks and 255 after 1387, for good. -/
def Obligations.DecayFiguresFromMaximum : Prop :=
  ∀ (es : List Bool) (s : State) (k : GrainId), s.marked = false → s.cursor.toNat < 2048 →
    s.syncAcc.toNat + es.length * s.syncInc.toNat < 65536 → (s.grain k).amp = 0x7FFF →
    ∃ t, tickAll es s = some t ∧
      ((s.grain k).dec = 255 →
        (es.length = 1 → (t.grain k).amp.toNat = 382) ∧ (2 ≤ es.length → (t.grain k).amp.toNat = 127)) ∧
      ((s.grain k).dec = 1 →
        (es.length = 1386 → (t.grain k).amp.toNat = 256) ∧ (1387 ≤ es.length → (t.grain k).amp.toNat = 255))

/-- R33, R43: the invariant of the amplitude, over every operation: it never rises but by a tick that retriggers. -/
def Obligations.AmplitudeNeverRisesButByRetrigger : Prop :=
  ∀ (i : Instr) (s t : State), exec i s = .next t → ∀ k,
    (t.grain k).amp.toNat ≤ (s.grain k).amp.toNat ∨ ((∃ e, i = .tick e) ∧ s.carries)

/-- R129: the phase law over any ticks: of the sync accumulator, from any start; of a grain's accumulator while no retrigger
comes; and counted from a retriggering tick, inclusive. -/
def Obligations.PhaseLaw : Prop :=
  ∀ (es : List Bool) (s : State), s.marked = false → s.cursor.toNat < 2048 →
    ∃ t, tickAll es s = some t ∧
      t.syncAcc.toNat = (s.syncAcc.toNat + es.length * s.syncInc.toNat) % 65536 ∧
      (s.syncAcc.toNat + es.length * s.syncInc.toNat < 65536 → ∀ k,
        (t.grain k).acc.toNat = ((s.grain k).acc.toNat + es.length * (s.grain k).inc.toNat) % 65536) ∧
      (es ≠ [] → s.carries → s.syncAcc.toNat + es.length * s.syncInc.toNat < 2 * 65536 → ∀ k,
        (t.grain k).acc.toNat = es.length * (s.grain k).inc.toNat % 65536)

/-- R135: a grain with increment 0 keeps its phase between retriggers and is at 0 after one, where its magnitude is 0; with
`sync_inc` = 0 no tick retriggers. -/
def Obligations.ZeroIncrementsHoldStill : Prop :=
  ∀ (e : Bool) (s : State) (k : GrainId), (e = true → s.cursor.toNat < 2048) →
    ∃ t, exec (.tick e) s = .next t ∧
      ((s.grain k).inc = 0 → (t.grain k).acc = if s.carries then 0 else (s.grain k).acc) ∧
      ((s.grain k).inc = 0 → s.carries ∨ (s.grain k).acc = 0 →
        (t.grain k).inc = 0 ∧ (t.grain k).acc = 0 ∧
        (((oscillatorStages (.tick e) s).grain k).product s.cfg.triLsb) = 0) ∧
      (s.syncInc = 0 → ¬ s.carries ∧ t.syncInc = 0)

/-- R170's example, and R237: with `sync_inc` = 0x8000 exactly one of two consecutive ticks retriggers, whatever `sync_acc`
holds; with 0xFFFF the next tick does for every `sync_acc` but 0. -/
def Obligations.SyncCadence : Prop :=
  ∀ (e : Bool) (s t : State),
    (s.syncInc = 0x8000 → exec (.tick e) s = .next t → t.fault = none → (t.carries ↔ ¬ s.carries)) ∧
    (s.syncInc = 0xFFFF → (s.carries ↔ s.syncAcc ≠ 0))

/-! ## Echo delay line and output (spec/42_echo_delay_line.md) -/

/-- R124, R126, R150, R151, R153, R154: the byte of S7 goes out, and the status line takes e. -/
def Obligations.TickDrivesTheOutputs : Prop :=
  ∀ (e : Bool) (s : State), (e = true → s.cursor.toNat < 2048) →
    ∃ t, exec (.tick e) s = .next t ∧ t.outReg.toNat = s.byteOf e ∧ t.status = e

/-- R156, R157: without echo the delay line and the cursor stay; with it exactly the cursor's cell is rewritten, with the
byte that goes out, the mean, and the cursor advances. -/
def Obligations.EchoRewritesOneCellAndAdvances : Prop :=
  ∀ s : State, s.delay.wf = true →
    (∃ t, exec (.tick false) s = .next t ∧ t.delay = s.delay ∧ t.cursor = s.cursor) ∧
    (s.cursor.toNat < 2048 → ∃ t, exec (.tick true) s = .next t ∧
      t.delay.get s.cursor.toNat = t.outReg ∧
      t.outReg.toNat = (s.sampleOf + (s.delay.get s.cursor.toNat).toNat) / 2 ∧
      (∀ a, a ≠ s.cursor.toNat → t.delay.get a = s.delay.get a) ∧
      t.cursor.toNat = (s.cursor.toNat + 1) % 2048)

/-- R127, R153: the status events and the one output event of a tick, each tagged with it; nothing else is emitted. -/
def Obligations.TickEmitsItsEvents : Prop :=
  ∀ (e : Bool) (s : State), (e = true → s.cursor.toNat < 2048) →
    ∃ t new, exec (.tick e) s = .next t ∧ t.events = s.events ++ new ∧
      statusEvents new = (if s.carries then [!s.status, e] else [e]) ∧
      outEvents new = [t.outReg] ∧ resultEvents new = [] ∧ t.status = e ∧ ∀ ev ∈ new, ev.op = .tick e

/-- The frame of a tick that completes: parameters of the instance, marks and agents' lists (R35, R202). The registers it
may write are in the statements above. -/
def Obligations.TickLeavesMarksAndListsAlone : Prop :=
  ∀ (e : Bool) (s : State), (e = true → s.cursor.toNat < 2048) →
    ∃ t, exec (.tick e) s = .next t ∧ t.cfg = s.cfg ∧ t.fault = s.fault ∧ t.refusal = s.refusal ∧ t.agents = s.agents

/-- R159, R202: an echo tick issued with the cursor out of range sets the fault mark, names itself, and leaves all else as
it was; a tick without echo does not fault on it; and no state that power-on reaches has such a cursor. -/
def Obligations.CursorOutOfRangeFaultsAnEchoTick : Prop :=
  (∀ s : State, s.marked = false → 2048 ≤ s.cursor.toNat →
    (s.agents.nextOp = some (.ticker, 0x80001) →
      step s = .next { s with fault := some (.cursorOutOfRange (.tick true)) }) ∧
    (∃ t, exec (.tick false) s = .next t ∧ t.marked = false ∧ t.cursor = s.cursor ∧ t.delay = s.delay)) ∧
  (∀ (c : Config) (d : Memory) (p : Agents) (n : Nat) (t : State), d.wf = true →
    stepN n (State.powerOn c d p) = .next t → t.cursor.toNat < 2048)

/-- R158: the ring. After any ticks the cursor has advanced once per echo tick, modulo 2048, and every cell the cursor has
not passed holds what it held; so a cell written by an echo tick is read again by the 2048th echo tick after it. That the
list of cells stays canonical is the model's own form (log 8). -/
def Obligations.RingPeriod : Prop :=
  (∀ (es : List Bool) (s : State), s.marked = false → s.delay.wf = true → s.cursor.toNat < 2048 →
    ∃ t, tickAll es s = some t ∧ t.delay.wf = true ∧
      t.cursor.toNat = (s.cursor.toNat + es.count true) % 2048 ∧
      ∀ a, a < 2048 → es.count true ≤ (a + 2048 - s.cursor.toNat) % 2048 → t.delay.get a = s.delay.get a) ∧
  (∀ (es : List Bool) (s : State), s.marked = false → s.delay.wf = true → s.cursor.toNat < 2048 →
    es.count true = 2047 →
    ∃ u t, exec (.tick true) s = .next u ∧ tickAll es u = some t ∧
      t.cursor = s.cursor ∧ t.delay.get t.cursor.toNat = u.outReg)

/-- R151: without echo, nothing of a tick depends on the delay RAM or the cursor. -/
def Obligations.DryTickIgnoresTheDelayLine : Prop :=
  ∀ (s t : State) (m : Memory) (c : Half), exec (.tick false) s = .next t →
    exec (.tick false) { s with delay := m, cursor := c } = .next { t with delay := m, cursor := c }

/-! ## RESET and power-on (spec/70_reset_and_hazards.md) -/

/-- R231: RESET's word and agent, its reserved operands, its effect, whole: every register 0, the delay RAM, the marks, the
observation and the rest as they were; two are as one; and a faulted state takes no step, RESET included. -/
def Obligations.ResetZeroesTheRegistersAlone : Prop :=
  decode 0xF0000 = .ok .reset ∧ Instr.reset.agent = .host ∧
  (∀ w : CommandWord, w.toNat / 65536 = 0xF → w.toNat % 65536 ≠ 0 → decode w = .error .reservedOperand) ∧
  (∀ s : State, ∃ t, exec .reset s = .next t ∧
    t = { s with syncAcc := 0, syncInc := 0, g1 := ⟨0, 0, 0, 0⟩, g2 := ⟨0, 0, 0, 0⟩, cursor := 0, outReg := 0,
                 status := false } ∧
    exec .reset t = .next t) ∧
  (∀ (s : State) (r : Fault), s.fault = some r → s.agents.nextOp = some (.host, 0xF0000) →
    (∀ t, step s ≠ .next t) ∧ (s.refusal = none → step s = .fault r))

/-- R230: power-on, for every instance of the parameters and all contents of the delay RAM: registers at the values of R30,
marks clear. -/
def Obligations.PowerOnState : Prop :=
  ∀ (c : Config) (d : Memory) (p : Agents),
    let s := State.powerOn c d p
    s.syncAcc = 0 ∧ s.syncInc = 0 ∧ s.cursor = 0 ∧ s.outReg = 0 ∧ s.status = false ∧
    (∀ k, (s.grain k).acc = 0 ∧ (s.grain k).amp = 0 ∧ (s.grain k).inc = 0 ∧ (s.grain k).dec = 0) ∧
    (∀ a, s.delay.get a = d.get a) ∧ s.fault = none ∧ s.refusal = none

/-- R234: silence until MAIN writes a nonzero `sync_inc`.
A step of a silent state that does not perform such a write leaves it silent, and emits no output event of a tick without
echo but 0. So does every run from power-on, with any parameters, any delay RAM and any operations, up to its first such
write. RESET leaves a silent state. In a silent state an echo tick puts out half of the cell. -/
def Obligations.SilenceUntilSyncIsWritten : Prop :=
  (∀ s t : State, s.silent → ¬ s.startsSync → step s = .next t →
    t.silent ∧ ∃ new, t.events = s.events ++ new ∧
      ∀ ev ∈ new, ev.op = .tick false → ∀ v, ev.kind = .out v → v = 0) ∧
  (∀ (c : Config) (d : Memory) (p : Agents) (n : Nat) (t : State),
    (∀ m u, m < n → stepN m (State.powerOn c d p) = .next u → ¬ u.startsSync) →
    stepN n (State.powerOn c d p) = .next t →
    t.silent ∧ ∀ ev ∈ t.events, ev.op = .tick false → ∀ v, ev.kind = .out v → v = 0) ∧
  (∀ s t : State, exec .reset s = .next t → t.silent) ∧
  (∀ s : State, s.silent → s.cursor.toNat < 2048 →
    ∃ t, exec (.tick true) s = .next t ∧ t.outReg.toNat = (s.delay.get s.cursor.toNat).toNat / 2)

/-! ## The machine (spec/20_memory.md, spec/60_exceptions.md) -/

/-- A step runs the decoded operation: in an unmarked state, where the next operation's word decodes to one that its issuer
may issue, the step is exec of it, and then the operation leaves its agent's list and the turn passes, unless the operation
raised a mark: then the state is exactly what exec answers (R6, R68, R88, R202). The lists are the model's form of R68 (log 1); that a
raising operation stays listed is deduced from R202 (log 5). -/
def Obligations.StepRunsTheNextOperation : Prop :=
  ∀ (s t : State) (a : Agent) (w : CommandWord) (i : Instr), s.fault = none → s.refusal = none →
    s.agents.nextOp = some (a, w) → decode w = .ok i → i.agent = a → exec i s = .next t →
    step s = .next (if t.fault = none ∧ t.refusal = none then { t with agents := t.agents.issued a } else t)

/-- R202: a marked state takes no step; a state with one mark keeps its reason (R202 does not order two marks, and nothing is
said of which of two is answered); an operation of the wrong agent sets the refusal mark; a step that sets a mark leaves every
other piece of state as it was. -/
def Obligations.MarksAreStickyAndExact : Prop :=
  (∀ s t : State, s.marked = true → step s ≠ .next t) ∧
  (∀ (s : State) (r : Fault), s.fault = some r → s.refusal = none → step s = .fault r) ∧
  (∀ (s : State) (r : Refusal), s.fault = none → s.refusal = some r → step s = .refused r) ∧
  (∀ (s t : State) (a : Agent) (w : CommandWord) (i : Instr), s.marked = false → s.agents.nextOp = some (a, w) →
    decode w = .ok i → i.agent ≠ a → step s = .next t → t.refusal = some (.wrongAgent a i)) ∧
  (∀ s t : State, step s = .next t → t.marked = true → t = { s with fault := t.fault, refusal := t.refusal })

/-- R88: the agent column, and an operation from another agent: no meaning, the refusal mark, nothing else. -/
def Obligations.WrongAgentIsRefused : Prop :=
  (∀ i : Instr, i.agent =
    match i with
    | .tick _ => Agent.ticker
    | .reset => Agent.host
    | _ => Agent.main) ∧
  ∀ (s : State) (a : Agent) (w : CommandWord) (i : Instr), s.marked = false → s.agents.nextOp = some (a, w) →
    decode w = .ok i → i.agent ≠ a → step s = .next { s with refusal := some (.wrongAgent a i) }

/-- The model's choice (log 2): a state in which nobody has an operation to issue waits; with no turn given, unchanged
(R232: "After reset it waits for operations"). -/
def Obligations.NothingIssuedChangesNothing : Prop :=
  ∀ s : State, s.marked = false → s.agents.nextOp = none →
    step s = .next { s with agents := { s.agents with schedule := s.agents.schedule.tail } } ∧
    (s.agents.schedule = [] → step s = .next s)

/-- R200: no operation's own effect is a stop: `exec` answers a next state, whatever the state and the operands. For a TICK
with echo and the cursor at 2048 or more that next state is the one before it with the fault mark set (log 4), which takes no
further step (CursorOutOfRangeFaultsAnEchoTick, MarksAreStickyAndExact). -/
def Obligations.EveryOperationAnswersANextState : Prop :=
  ∀ (i : Instr) (s : State), ∃ t, exec i s = .next t

/-- R35, R40, R74, R100: who writes what, over every operation. -/
def Obligations.RegistersHaveTheirWriters : Prop :=
  ∀ (i : Instr) (s t : State), exec i s = .next t →
    t.cfg = s.cfg ∧ t.agents = s.agents ∧ t.refusal = s.refusal ∧
    ((∀ e, i ≠ .tick e) → t.delay = s.delay ∧ t.fault = s.fault) ∧
    ((∀ e, i ≠ .tick e) → i ≠ .reset →
      t.syncAcc = s.syncAcc ∧ t.cursor = s.cursor ∧ t.outReg = s.outReg ∧ t.status = s.status ∧
      ∀ k, (t.grain k).acc = (s.grain k).acc ∧ (t.grain k).amp = (s.grain k).amp) ∧
    ((∀ v, i ≠ .wrSyncInc v) → i ≠ .reset → t.syncInc = s.syncInc) ∧
    ((∀ v, i ≠ .wrG1Inc v) → i ≠ .reset → t.g1.inc = s.g1.inc) ∧
    ((∀ v, i ≠ .wrG1Dec v) → i ≠ .reset → t.g1.dec = s.g1.dec) ∧
    ((∀ v, i ≠ .wrG2Inc v) → i ≠ .reset → t.g2.inc = s.g2.inc) ∧
    ((∀ v, i ≠ .wrG2Dec v) → i ≠ .reset → t.g2.dec = s.g2.dec)

/-- The invariant of R37, R43 and R201 (`State.Inv`; the canonical form in it is the model's choice, log 8) is kept by every
step, from any state that has it. -/
def Obligations.StepKeepsTheInvariant : Prop :=
  ∀ s t : State, s.Inv → step s = .next t → t.Inv

/-- The invariant holds at power-on, for every well-formed contents of the delay RAM. -/
def Obligations.PowerOnHasTheInvariant : Prop :=
  ∀ (c : Config) (d : Memory) (p : Agents), d.wf = true → (State.powerOn c d p).Inv

/-- R201's last column, with R88 and R131: from power-on, with any parameters and delay RAM, a run of operations that select
a row of the opcode map and come from that row's agent never stops, never faults and is never refused. Any number of steps is
taken, since a machine with nothing to issue waits (the model's choice, log 2). LawfulStepsStayUnmarked is its step. -/
def Obligations.LawfulRunsAreNeverMarked : Prop :=
  ∀ (c : Config) (d : Memory) (p : Agents) (n : Nat), d.wf = true → p.lawful = true →
    ∃ t, stepN n (State.powerOn c d p) = .next t ∧ t.marked = false ∧ t.Inv

/-- The delay RAM's form is canonical (the model's choice, log 8): equal contents are equal lists. -/
def Obligations.EqualDelayContentsAreEqualLists : Prop :=
  ∀ m m' : Memory, m.wf = true → m'.wf = true → (∀ a, a < 2048 → m.get a = m'.get a) → m = m'

/-! ## Agents and orders (spec/20_memory.md R68, R69) -/

/-- R68: the lists made of a total order keep each agent's own order, and the turns are the order's. That
lists and turns are state is the model's form of R68 (log 1). -/
def Obligations.ListsKeepEachAgentsOrder : Prop :=
  ∀ (l : List (Agent × CommandWord)),
    (∀ a, (Agents.ofOrder l).listOf a = (l.filter fun x => x.1 == a).map Prod.snd) ∧
    (Agents.ofOrder l).schedule = l.map Prod.fst

/-- R68, R89: running the lists of a total order is performing its operations one after the other in that order, and then
every list is empty (lists and turns: the model's form, log 1). -/
def Obligations.RunPerformsTheTotalOrder : Prop :=
  ∀ (l : List (Agent × Instr)) (s t : State), (∀ x ∈ l, x.2.agent = x.1) → s.marked = false →
    execAll (l.map Prod.snd) s = some t →
    stepN l.length { s with agents := Agents.ofOrder (l.map fun x => (x.1, encode x.2)) } =
      .next { t with agents := Agents.idle }

/-- R69, R134, R175, R235: a tick between two writes of one update sees the new field and the old one. -/
def Obligations.TickBetweenWritesSeesATornSet : Prop :=
  ∀ (s : State) (e : Bool) (v w : Half), s.marked = false → (e = true → s.cursor.toNat < 2048) →
    ∃ t, execAll [.wrG1Inc v, .tick e, .wrG2Inc w] s = some t ∧
      t.g1.acc = (if s.carries then 0 else s.g1.acc) + v ∧
      t.g2.acc = (if s.carries then 0 else s.g2.acc) + s.g2.inc ∧
      t.g1.inc = v ∧ t.g2.inc = w

/-- How the host places an operation (log 3): the next step performs exactly it, and the lists are then as they were. -/
def Obligations.PlacedOperationRunsNext : Prop :=
  ∀ (s t : State) (i : Instr), s.marked = false → exec i s = .next t → t.marked = false →
    step (s.withFetchWord 24 (encode i).toNat) = .next t

/-! ## Assembler (spec/30_encoding.md R86, R87) -/

/-- R86: each line's word and issuing agent, the prefix's if it carries one and the opcode map's otherwise; an operand out
of range is an error. -/
def Obligations.AssemblerLinesGiveTheirWords : Prop :=
  ∀ (g : Option Agent) (n : Nat),
    assembleLine ⟨g, .wrSync n⟩ =
      (if n ≤ 65535 then some [(g.getD .main, BitVec.ofNat 20 (0x10000 ||| n))] else none) ∧
    assembleLine ⟨g, .wrG1Inc n⟩ =
      (if n ≤ 65535 then some [(g.getD .main, BitVec.ofNat 20 (0x20000 ||| n))] else none) ∧
    assembleLine ⟨g, .wrG1Dec n⟩ =
      (if n ≤ 255 then some [(g.getD .main, BitVec.ofNat 20 (0x30000 ||| n))] else none) ∧
    assembleLine ⟨g, .wrG2Inc n⟩ =
      (if n ≤ 65535 then some [(g.getD .main, BitVec.ofNat 20 (0x40000 ||| n))] else none) ∧
    assembleLine ⟨g, .wrG2Dec n⟩ =
      (if n ≤ 255 then some [(g.getD .main, BitVec.ofNat 20 (0x50000 ||| n))] else none) ∧
    assembleLine ⟨g, .tick n⟩ =
      (if n ≤ 1 then some [(g.getD .ticker, BitVec.ofNat 20 (0x80000 ||| n))] else none) ∧
    assembleLine ⟨g, .mapLog n⟩ =
      (if n ≤ 1023 then some [(g.getD .main, BitVec.ofNat 20 (0x90000 ||| n))] else none) ∧
    assembleLine ⟨g, .mapChrom n⟩ =
      (if n ≤ 1023 then some [(g.getD .main, BitVec.ofNat 20 (0xA0000 ||| n))] else none) ∧
    assembleLine ⟨g, .mapPent n⟩ =
      (if n ≤ 1023 then some [(g.getD .main, BitVec.ofNat 20 (0xB0000 ||| n))] else none) ∧
    assembleLine ⟨g, .reset⟩ = some [(g.getD .host, 0xF0000)]

/-- R87: a pseudo-instruction assembles to its members' words, in their order, as separate operations; an `e` of `ticks` that
is no operand of `tick` is an error. That a prefix goes to each member, and that `ticks 0, e` is an error for such an `e`, are
the model's choice (log 17). -/
def Obligations.PseudoInstructionsExpandToTheirMembers : Prop :=
  ∀ (g : Option Agent) (a b c d f n : Nat),
    assembleLine ⟨g, .wrParams a b c d f⟩ =
      assemble [⟨g, .wrSync a⟩, ⟨g, .wrG1Inc b⟩, ⟨g, .wrG1Dec c⟩, ⟨g, .wrG2Inc d⟩, ⟨g, .wrG2Dec f⟩] ∧
    (b ≤ 1 → assembleLine ⟨g, .ticks n b⟩ = assemble (List.replicate n ⟨g, .tick b⟩)) ∧
    (1 < b → assembleLine ⟨g, .ticks n b⟩ = none) ∧
    assembleLine ⟨g, .wrVoice1 a b⟩ = assemble [⟨g, .wrG1Inc a⟩, ⟨g, .wrG1Dec b⟩] ∧
    assembleLine ⟨g, .wrVoice2 a b⟩ = assemble [⟨g, .wrG2Inc a⟩, ⟨g, .wrG2Dec b⟩]

/-! ## The step of the run laws -/

/-- The step behind LawfulRunsAreNeverMarked (R201's last column, R88, R131): from every unmarked state with the invariant
whose lists hold only words their agents may issue, a step answers such a state again. Where nobody has an operation to
issue, the step is the model's waiting (log 2). -/
def Obligations.LawfulStepsStayUnmarked : Prop :=
  ∀ s : State, s.Inv → s.marked = false → s.agents.lawful = true →
    ∃ t, step s = .next t ∧ t.Inv ∧ t.marked = false ∧ t.agents.lawful = true
end

