-- ==== Sys2Proof/Laws/Decode.lean ====
section
/-!
SUPPORT. The fields of an encoded word, one lemma per format, and what each decoded format says of its word.
-/

namespace Sys2Proof

/-! The bits of a word made of an opcode and an operand, and of an operand made of two parts. -/

theorem word_getLsbD (op : BitVec 4) (v : Half) (i : Nat) :
    BitVec.getLsbD (op ++ v : CommandWord) i = if i < 16 then v.getLsbD i else op.getLsbD (i - 16) := by
  exact BitVec.getLsbD_append (x := op) (y := v)

theorem word8_getLsbD (op : BitVec 4) (u v : Byte) (i : Nat) :
    BitVec.getLsbD (op ++ (u ++ v) : CommandWord) i =
      if i < 16 then (if i < 8 then v.getLsbD i else u.getLsbD (i - 8)) else op.getLsbD (i - 16) := by
  rw [← BitVec.getLsbD_append (x := u) (y := v)]
  exact BitVec.getLsbD_append (x := op) (y := u ++ v)

theorem wordT_getLsbD (op : BitVec 4) (u : BitVec 15) (e : BitVec 1) (i : Nat) :
    BitVec.getLsbD (op ++ (u ++ e) : CommandWord) i =
      if i < 16 then (if i < 1 then e.getLsbD i else u.getLsbD (i - 1)) else op.getLsbD (i - 16) := by
  rw [← BitVec.getLsbD_append (x := u) (y := e)]
  exact BitVec.getLsbD_append (x := op) (y := u ++ e)

theorem wordM_getLsbD (op : BitVec 4) (u : BitVec 6) (x : Reading) (i : Nat) :
    BitVec.getLsbD (op ++ (u ++ x) : CommandWord) i =
      if i < 16 then (if i < 10 then x.getLsbD i else u.getLsbD (i - 10)) else op.getLsbD (i - 16) := by
  rw [← BitVec.getLsbD_append (x := u) (y := x)]
  exact BitVec.getLsbD_append (x := op) (y := u ++ x)

theorem opField_append (op : BitVec 4) (v : Half) : opField (op ++ v) = op := by
  apply BitVec.eq_of_getLsbD_eq
  intro i hi
  rw [opField, BitVec.getLsbD_extractLsb', word_getLsbD]
  simp [hi]

theorem imm16Field_append (op : BitVec 4) (v : Half) : imm16Field (op ++ v) = v := by
  apply BitVec.eq_of_getLsbD_eq
  intro i hi
  rw [imm16Field, BitVec.getLsbD_extractLsb', word_getLsbD]
  simp [hi]

theorem imm8Field_append (op : BitVec 4) (u v : Byte) : imm8Field (op ++ (u ++ v)) = v := by
  apply BitVec.eq_of_getLsbD_eq
  intro i hi
  rw [imm8Field, BitVec.getLsbD_extractLsb', word8_getLsbD]
  simp [hi, show i < 16 by omega]

theorem eField_append (op : BitVec 4) (u : BitVec 15) (e : Bool) : eField (op ++ (u ++ BitVec.ofBool e)) = e := by
  rw [eField, wordT_getLsbD]
  simp

theorem reservedT_append (op : BitVec 4) (u : BitVec 15) (e : BitVec 1) : reservedT (op ++ (u ++ e)) = u := by
  apply BitVec.eq_of_getLsbD_eq
  intro i hi
  rw [reservedT, BitVec.getLsbD_extractLsb', wordT_getLsbD]
  simp [hi, show 1 + i < 16 by omega]

theorem xField_append (op : BitVec 4) (u : BitVec 6) (x : Reading) : xField (op ++ (u ++ x)) = x := by
  apply BitVec.eq_of_getLsbD_eq
  intro i hi
  rw [xField, BitVec.getLsbD_extractLsb', wordM_getLsbD]
  simp [hi, show i < 16 by omega]

theorem reservedM_append (op : BitVec 4) (u : BitVec 6) (x : Reading) : reservedM (op ++ (u ++ x)) = u := by
  apply BitVec.eq_of_getLsbD_eq
  intro i hi
  rw [reservedM, BitVec.getLsbD_extractLsb', wordM_getLsbD]
  simp [hi, show 10 + i < 16 by omega]

/-- A `T` word decodes exactly where its reserved bits are 0. -/
theorem decodeT_eq_ok {w : CommandWord} {i : Instr} :
    decodeT w = .ok i ↔ reservedT w = 0 ∧ i = .tick (eField w) := by
  unfold decodeT
  split
  · rename_i h; simp [h, eq_comm (a := i)]
  · rename_i h; exact ⟨(fun hc => nomatch hc), fun hc => absurd hc.1 h⟩

/-- An `M` word decodes exactly where its reserved bits are 0. -/
theorem decodeM_eq_ok {mk : Reading → Instr} {w : CommandWord} {i : Instr} :
    decodeM mk w = .ok i ↔ reservedM w = 0 ∧ i = mk (xField w) := by
  unfold decodeM
  split
  · rename_i h; simp [h, eq_comm (a := i)]
  · rename_i h; exact ⟨(fun hc => nomatch hc), fun hc => absurd hc.1 h⟩

/-- A `Z` word decodes exactly where its reserved bits are 0. -/
theorem decodeZ_eq_ok {w : CommandWord} {i : Instr} :
    decodeZ w = .ok i ↔ imm16Field w = 0 ∧ i = .reset := by
  unfold decodeZ
  split
  · rename_i h; simp [h, eq_comm (a := i)]
  · rename_i h; exact ⟨(fun hc => nomatch hc), fun hc => absurd hc.1 h⟩

/-! The fields as numbers (R80-R82). -/

theorem opField_toNat (w : CommandWord) : (opField w).toNat = w.toNat / 65536 := by
  have := w.isLt
  simp only [opField, BitVec.extractLsb'_toNat, Nat.shiftRight_eq_div_pow]
  omega

theorem imm16Field_toNat (w : CommandWord) : (imm16Field w).toNat = w.toNat % 65536 := by
  simp [imm16Field, BitVec.extractLsb'_toNat]

theorem imm8Field_toNat (w : CommandWord) : (imm8Field w).toNat = w.toNat % 256 := by
  simp [imm8Field, BitVec.extractLsb'_toNat]

theorem xField_toNat (w : CommandWord) : (xField w).toNat = w.toNat % 1024 := by
  simp [xField, BitVec.extractLsb'_toNat]

theorem eField_iff (w : CommandWord) : eField w = true ↔ w.toNat % 2 = 1 := by
  simp [eField, BitVec.getLsbD, Nat.testBit_zero]

theorem reservedT_eq_zero (w : CommandWord) : reservedT w = 0 ↔ w.toNat % 65536 / 2 = 0 := by
  have h : (reservedT w).toNat = w.toNat % 65536 / 2 := by
    simp only [reservedT, BitVec.extractLsb'_toNat, Nat.shiftRight_eq_div_pow]
    omega
  rw [← h, ← BitVec.toNat_inj]; simp

theorem reservedM_eq_zero (w : CommandWord) : reservedM w = 0 ↔ w.toNat % 65536 / 1024 = 0 := by
  have h : (reservedM w).toNat = w.toNat % 65536 / 1024 := by
    simp only [reservedM, BitVec.extractLsb'_toNat, Nat.shiftRight_eq_div_pow]
    omega
  rw [← h, ← BitVec.toNat_inj]; simp

theorem imm16Field_eq_zero (w : CommandWord) : imm16Field w = 0 ↔ w.toNat % 65536 = 0 := by
  rw [← imm16Field_toNat, ← BitVec.toNat_inj]; simp

/-- An opcode is one of sixteen: the case split of every fact about decoding. -/
theorem opcode_cases (op : BitVec 4) :
    op = 0 ∨ op = 1 ∨ op = 2 ∨ op = 3 ∨ op = 4 ∨ op = 5 ∨ op = 6 ∨ op = 7 ∨ op = 8 ∨ op = 9 ∨ op = 10 ∨ op = 11 ∨
      op = 12 ∨ op = 13 ∨ op = 14 ∨ op = 15 := by
  revert op; decide

/-- The word of an opcode and its operand, put together again. -/
theorem word_of_fields (w : CommandWord) : (opField w ++ imm16Field w : CommandWord) = w := by
  apply BitVec.eq_of_getLsbD_eq
  intro i hi
  rw [word_getLsbD]
  simp only [opField, imm16Field, BitVec.getLsbD_extractLsb']
  split
  · simp [*]
  · simp [show i - 16 < 4 by omega, show 16 + (i - 16) = i by omega]

end Sys2Proof
end

