-- ==== Sys2Proof/Laws/Mapper.lean ====
section
/-!
SUPPORT. The mapper's index and result as the spec's formulas on naturals (spec/40_frequency_mapper.md R101-R103).
-/

namespace Sys2Proof.Machine

theorem antilogIndex_eq (x : Reading) : antilogIndex x = x.toNat % 64 := by
  simp [antilogIndex, BitVec.extractLsb'_toNat]

theorem octaveShift_eq (x : Reading) : octaveShift x = x.toNat / 64 := by
  have := x.isLt
  simp only [octaveShift, BitVec.extractLsb'_toNat, Nat.shiftRight_eq_div_pow]
  omega

/-- A table entry read through the list. -/
theorem vector_getElem_eq_getD {n : Nat} (t : Vector Half n) (i : Nat) (h : i < n) : t[i]'h = t.toList.getD i 0 := by
  rw [List.getD_eq_getElem _ _ (by simpa using h)]
  simp

theorem logIncrement_toNat (c : Config) (x : Reading) :
    (logIncrement c x).toNat = (c.antilog.toList.getD (x.toNat % 64) 0).toNat / 2 ^ (x.toNat / 64) := by
  unfold logIncrement
  rw [vector_getElem_eq_getD, antilogIndex_eq, octaveShift_eq, BitVec.toNat_ushiftRight, Nat.shiftRight_eq_div_pow]

theorem chromIncrement_eq (c : Config) (x : Reading) :
    chromIncrement c x = c.chrom.toList.getD ((1023 - x.toNat) / 8) 0 :=
  vector_getElem_eq_getD c.chrom _ _

theorem pentaIncrement_eq (c : Config) (x : Reading) :
    pentaIncrement c x = c.penta.toList.getD ((1023 - x.toNat) / 19) 0 :=
  vector_getElem_eq_getD c.penta _ _

end Sys2Proof.Machine
end

