-- ==== Sys2Proof/Laws/Memory.lean ====
section
/-!
SUPPORT. The delay RAM's laws: a read after a write, every other cell untouched, the canonical form kept, and equal contents
are equal lists.
-/

namespace Sys2Proof.Machine

theorem Memory.risingFrom_mono {lo lo' : Nat} (h : lo' ≤ lo) {m : Memory} (hm : Memory.risingFrom lo m = true) :
    Memory.risingFrom lo' m = true := by
  cases m with
  | nil => rfl
  | cons c m =>
    simp only [Memory.risingFrom, Bool.and_eq_true, decide_eq_true_eq] at hm ⊢
    exact ⟨h.trans hm.1, hm.2⟩

/-- Below its first possible index a list says nothing. -/
theorem Memory.get_of_lt {m : Memory} : ∀ {lo a : Nat}, Memory.risingFrom lo m = true → a < lo →
    Memory.get m a = Memory.unlisted := by
  induction m with
  | nil => intros; rfl
  | cons c m ih =>
    intro lo a hm ha
    simp only [Memory.risingFrom, Bool.and_eq_true, decide_eq_true_eq] at hm
    have hne : c.1 ≠ a := by omega
    rw [Memory.get, if_neg hne]
    exact ih hm.2 (by omega)

theorem Memory.get_cons (a b : Nat) (v : Byte) {lo : Nat} {m : Memory} (hm : Memory.risingFrom lo m = true) (ha : a < lo) :
    Memory.get (Memory.cons a v m) b = if a = b then v else Memory.get m b := by
  unfold Memory.cons
  by_cases hv : v = Memory.unlisted
  · rw [if_pos hv]
    by_cases hab : a = b
    · subst hab; rw [if_pos rfl, Memory.get_of_lt hm ha, hv]
    · rw [if_neg hab]
  · rw [if_neg hv]; rfl

theorem Memory.risingFrom_cons {lo a : Nat} {v : Byte} {m : Memory} (hlo : lo ≤ a)
    (hm : Memory.risingFrom (a + 1) m = true) : Memory.risingFrom lo (Memory.cons a v m) = true := by
  unfold Memory.cons
  split
  · exact Memory.risingFrom_mono (by omega) hm
  · simp [Memory.risingFrom, hlo, hm]

theorem Memory.risingFrom_put {v : Byte} {m : Memory} : ∀ {lo a : Nat}, lo ≤ a → Memory.risingFrom lo m = true →
    Memory.risingFrom lo (Memory.put m a v) = true := by
  induction m with
  | nil => intro lo a h _; exact Memory.risingFrom_cons h rfl
  | cons c m ih =>
    intro lo a h hm
    obtain ⟨b, x⟩ := c
    simp only [Memory.risingFrom, Bool.and_eq_true, decide_eq_true_eq] at hm
    unfold Memory.put
    split
    · exact Memory.risingFrom_cons h (by simp [Memory.risingFrom, hm.2]; omega)
    · split
      · rename_i heq; subst heq; exact Memory.risingFrom_cons h hm.2
      · simp only [Memory.risingFrom, Bool.and_eq_true, decide_eq_true_eq]
        exact ⟨hm.1, ih (by omega) hm.2⟩

/-- What every cell reads as after a write. -/
theorem Memory.get_put {v : Byte} {m : Memory} : ∀ {lo : Nat} (a b : Nat), Memory.risingFrom lo m = true →
    Memory.get (Memory.put m a v) b = if a = b then v else Memory.get m b := by
  induction m with
  | nil => intro lo a b _; exact Memory.get_cons a b v (lo := a + 1) rfl (by omega)
  | cons c m ih =>
    intro lo a b hm
    obtain ⟨d, x⟩ := c
    simp only [Memory.risingFrom, Bool.and_eq_true, decide_eq_true_eq] at hm
    unfold Memory.put
    split
    · exact Memory.get_cons a b v (lo := a + 1) (by simp [Memory.risingFrom, hm.2]; omega) (by omega)
    · split
      · rename_i heq
        subst heq
        rw [Memory.get_cons a b v hm.2 (by omega)]
        by_cases hab : a = b
        · simp [hab]
        · simp [hab, Memory.get]
      · by_cases hdb : d = b
        · have : a ≠ b := by omega
          simp [Memory.get, hdb, this]
        · simp only [Memory.get, hdb, if_false]
          exact ih a b hm.2

/-- Every listed cell is a cell of the RAM and does not hold the unlisted value. -/
def Memory.cellsOk (m : Memory) : Bool :=
  m.all fun c => decide (c.1 < delayLen) && decide (c.2 ≠ Memory.unlisted)

theorem Memory.wf_iff (m : Memory) : m.wf = true ↔ Memory.risingFrom 0 m = true ∧ Memory.cellsOk m = true := by
  simp only [Memory.wf, Memory.cellsOk, Bool.and_eq_true]

theorem Memory.cellsOk_cons {a : Nat} {v : Byte} {m : Memory} (ha : a < delayLen) (hm : Memory.cellsOk m = true) :
    Memory.cellsOk (Memory.cons a v m) = true := by
  unfold Memory.cons
  split
  · exact hm
  · rename_i hv
    simp only [Memory.cellsOk, List.all_cons, Bool.and_eq_true, decide_eq_true_eq] at hm ⊢
    exact ⟨⟨ha, hv⟩, hm⟩

theorem Memory.cellsOk_put {a : Nat} {v : Byte} (ha : a < delayLen) {m : Memory} (hm : Memory.cellsOk m = true) :
    Memory.cellsOk (Memory.put m a v) = true := by
  induction m with
  | nil => exact Memory.cellsOk_cons ha hm
  | cons c m ih =>
    obtain ⟨b, x⟩ := c
    have htail : Memory.cellsOk m = true := by
      simp only [Memory.cellsOk, List.all_cons, Bool.and_eq_true] at hm ⊢; exact hm.2
    unfold Memory.put
    split
    · exact Memory.cellsOk_cons ha hm
    · split
      · exact Memory.cellsOk_cons ha htail
      · simp only [Memory.cellsOk, List.all_cons, Bool.and_eq_true] at hm ⊢
        exact ⟨hm.1, by simpa [Memory.cellsOk] using ih htail⟩

theorem Memory.wf_nil : Memory.wf [] = true := rfl

/-- A write of a cell keeps the canonical form. -/
theorem Memory.wf_put {m : Memory} {a : Nat} {v : Byte} (ha : a < delayLen) (hm : m.wf = true) :
    (m.put a v).wf = true := by
  rw [Memory.wf_iff] at hm ⊢
  exact ⟨Memory.risingFrom_put (Nat.zero_le a) hm.1, Memory.cellsOk_put ha hm.2⟩

theorem Memory.get_put_same {m : Memory} (hm : m.wf = true) (a : Nat) (v : Byte) : (m.put a v).get a = v := by
  rw [Memory.get_put a a ((Memory.wf_iff m).1 hm).1, if_pos rfl]

theorem Memory.get_put_other {m : Memory} (hm : m.wf = true) {a b : Nat} (v : Byte) (h : b ≠ a) :
    (m.put a v).get b = m.get b := by
  rw [Memory.get_put a b ((Memory.wf_iff m).1 hm).1, if_neg (Ne.symm h)]

/-- `memRead` answers the cell exactly where the index is one (R61). -/
theorem memRead_eq_some {m : Memory} {i : Nat} {v : Byte} :
    memRead m i = some v ↔ i < delayLen ∧ m.get i = v := by
  unfold memRead; split <;> simp [*]

theorem memRead_eq_none {m : Memory} {i : Nat} : memRead m i = none ↔ delayLen ≤ i := by
  unfold memRead; split <;> simp <;> omega

/-- `memWrite` answers the list with that one cell written exactly where the index is one (R61). -/
theorem memWrite_eq_some {m m' : Memory} {i : Nat} {v : Byte} :
    memWrite m i v = some m' ↔ i < delayLen ∧ m.put i v = m' := by
  unfold memWrite; split <;> simp [*]

theorem memWrite_eq_none {m : Memory} {i : Nat} {v : Byte} : memWrite m i v = none ↔ delayLen ≤ i := by
  unfold memWrite; split <;> simp <;> omega

theorem memWrite_wf {m m' : Memory} {i : Nat} {v : Byte} (hm : m.wf = true) (h : memWrite m i v = some m') :
    m'.wf = true := by
  obtain ⟨hi, rfl⟩ := memWrite_eq_some.1 h
  exact Memory.wf_put hi hm

end Sys2Proof.Machine
end

