-- ==== Sys2Proof/Laws/PerInstr.lean ====
section
/-!
SUPPORT. Facts about every instruction as syntax, one lemma per constructor.
EncodedWord: the encoder writes a word that selects the opcode row of the instruction's own mnemonic and agent
(spec/30_encoding.md R83).
-/

namespace Sys2Proof.Laws

/-- The encoded word selects a row of the opcode map, the row of this mnemonic and this agent. -/
def EncodedWord.Statement (i : Instr) : Prop :=
  ∃ r ∈ opRows, r.selects (encode i) = true ∧ r.mnemonic = i.mnemonic ∧ r.agent = i.agent

/-- A mask that keeps the opcode alone, of an opcode and its operand. -/
theorem EncodedWord.opcode_masked (op : BitVec 4) (v : Half) : (op ++ v : CommandWord) &&& 0xF0000 = op ++ (0 : Half) := by
  have h : (0xF0000 : CommandWord) = (BitVec.allOnes 4 ++ 0#16) := by decide
  have hand := BitVec.and_append (x₁ := op) (x₂ := BitVec.allOnes 4) (y₁ := v) (y₂ := 0#16)
  rw [BitVec.and_allOnes, BitVec.and_zero] at hand
  rw [h]
  exact hand

/-- A mask that keeps the opcode and the bits 15..10. -/
theorem EncodedWord.mapper_masked (op : BitVec 4) (x : Reading) :
    (op ++ (0#6 ++ x) : CommandWord) &&& 0xFFC00 = op ++ (0#6 ++ (0 : Reading)) := by
  have h : (0xFFC00 : CommandWord) = (BitVec.allOnes 4 ++ (BitVec.allOnes 6 ++ 0#10)) := by decide
  have hin := BitVec.and_append (x₁ := 0#6) (x₂ := BitVec.allOnes 6) (y₁ := x) (y₂ := 0#10)
  have hout := BitVec.and_append (x₁ := op) (x₂ := BitVec.allOnes 4) (y₁ := 0#6 ++ x) (y₂ := BitVec.allOnes 6 ++ 0#10)
  rw [BitVec.and_allOnes, BitVec.and_zero] at hin
  rw [BitVec.and_allOnes, hin] at hout
  rw [h]
  exact hout

theorem EncodedWord.wrSyncInc (v : Half) : EncodedWord.Statement (.wrSyncInc v) :=
  ⟨opRows[0], by decide, by
    change ((0x1#4 ++ v : CommandWord) &&& 0xF0000 == 0x10000) = true
    rw [opcode_masked]; decide, rfl, rfl⟩

theorem EncodedWord.wrG1Inc (v : Half) : EncodedWord.Statement (.wrG1Inc v) :=
  ⟨opRows[1], by decide, by
    change ((0x2#4 ++ v : CommandWord) &&& 0xF0000 == 0x20000) = true
    rw [opcode_masked]; decide, rfl, rfl⟩

theorem EncodedWord.wrG1Dec (v : Byte) : EncodedWord.Statement (.wrG1Dec v) :=
  ⟨opRows[2], by decide, by
    change ((0x3#4 ++ (0#8 ++ v) : CommandWord) &&& 0xF0000 == 0x30000) = true
    rw [opcode_masked]; decide, rfl, rfl⟩

theorem EncodedWord.wrG2Inc (v : Half) : EncodedWord.Statement (.wrG2Inc v) :=
  ⟨opRows[3], by decide, by
    change ((0x4#4 ++ v : CommandWord) &&& 0xF0000 == 0x40000) = true
    rw [opcode_masked]; decide, rfl, rfl⟩

theorem EncodedWord.wrG2Dec (v : Byte) : EncodedWord.Statement (.wrG2Dec v) :=
  ⟨opRows[4], by decide, by
    change ((0x5#4 ++ (0#8 ++ v) : CommandWord) &&& 0xF0000 == 0x50000) = true
    rw [opcode_masked]; decide, rfl, rfl⟩

theorem EncodedWord.tick (e : Bool) : EncodedWord.Statement (.tick e) :=
  ⟨opRows[5], by decide, by cases e <;> decide, rfl, rfl⟩

theorem EncodedWord.mapLog (x : Reading) : EncodedWord.Statement (.mapLog x) :=
  ⟨opRows[6], by decide, by
    change ((0x9#4 ++ (0#6 ++ x) : CommandWord) &&& 0xFFC00 == 0x90000) = true
    rw [mapper_masked]; decide, rfl, rfl⟩

theorem EncodedWord.mapChrom (x : Reading) : EncodedWord.Statement (.mapChrom x) :=
  ⟨opRows[7], by decide, by
    change ((0xA#4 ++ (0#6 ++ x) : CommandWord) &&& 0xFFC00 == 0xA0000) = true
    rw [mapper_masked]; decide, rfl, rfl⟩

theorem EncodedWord.mapPenta (x : Reading) : EncodedWord.Statement (.mapPenta x) :=
  ⟨opRows[8], by decide, by
    change ((0xB#4 ++ (0#6 ++ x) : CommandWord) &&& 0xFFC00 == 0xB0000) = true
    rw [mapper_masked]; decide, rfl, rfl⟩

theorem EncodedWord.reset : EncodedWord.Statement .reset :=
  ⟨opRows[9], by decide, by decide, rfl, rfl⟩

end Sys2Proof.Laws
end

