-- ==== Sys2Proof/Laws/State.lean ====
section
/-!
SUPPORT. One lemma per field and named update, true by rfl, so that no later proof unfolds an update.
-/

namespace Sys2Proof.Machine

/-! ### emit -/

@[simp] theorem State.emit_cfg (s : State) (i : Instr) (k : EventKind) :
    (s.emit i k).cfg = s.cfg := rfl
@[simp] theorem State.emit_syncAcc (s : State) (i : Instr) (k : EventKind) :
    (s.emit i k).syncAcc = s.syncAcc := rfl
@[simp] theorem State.emit_syncInc (s : State) (i : Instr) (k : EventKind) :
    (s.emit i k).syncInc = s.syncInc := rfl
@[simp] theorem State.emit_g1 (s : State) (i : Instr) (k : EventKind) :
    (s.emit i k).g1 = s.g1 := rfl
@[simp] theorem State.emit_g2 (s : State) (i : Instr) (k : EventKind) :
    (s.emit i k).g2 = s.g2 := rfl
@[simp] theorem State.emit_delay (s : State) (i : Instr) (k : EventKind) :
    (s.emit i k).delay = s.delay := rfl
@[simp] theorem State.emit_cursor (s : State) (i : Instr) (k : EventKind) :
    (s.emit i k).cursor = s.cursor := rfl
@[simp] theorem State.emit_outReg (s : State) (i : Instr) (k : EventKind) :
    (s.emit i k).outReg = s.outReg := rfl
@[simp] theorem State.emit_status (s : State) (i : Instr) (k : EventKind) :
    (s.emit i k).status = s.status := rfl
@[simp] theorem State.emit_fault (s : State) (i : Instr) (k : EventKind) :
    (s.emit i k).fault = s.fault := rfl
@[simp] theorem State.emit_refusal (s : State) (i : Instr) (k : EventKind) :
    (s.emit i k).refusal = s.refusal := rfl
@[simp] theorem State.emit_events (s : State) (i : Instr) (k : EventKind) :
    (s.emit i k).events = s.events ++ [⟨i, k⟩] := rfl
@[simp] theorem State.emit_agents (s : State) (i : Instr) (k : EventKind) :
    (s.emit i k).agents = s.agents := rfl

/-! ### mapGrains -/

@[simp] theorem State.mapGrains_cfg (s : State) (f : Grain → Grain) :
    (s.mapGrains f).cfg = s.cfg := rfl
@[simp] theorem State.mapGrains_syncAcc (s : State) (f : Grain → Grain) :
    (s.mapGrains f).syncAcc = s.syncAcc := rfl
@[simp] theorem State.mapGrains_syncInc (s : State) (f : Grain → Grain) :
    (s.mapGrains f).syncInc = s.syncInc := rfl
@[simp] theorem State.mapGrains_g1 (s : State) (f : Grain → Grain) :
    (s.mapGrains f).g1 = f s.g1 := rfl
@[simp] theorem State.mapGrains_g2 (s : State) (f : Grain → Grain) :
    (s.mapGrains f).g2 = f s.g2 := rfl
@[simp] theorem State.mapGrains_delay (s : State) (f : Grain → Grain) :
    (s.mapGrains f).delay = s.delay := rfl
@[simp] theorem State.mapGrains_cursor (s : State) (f : Grain → Grain) :
    (s.mapGrains f).cursor = s.cursor := rfl
@[simp] theorem State.mapGrains_outReg (s : State) (f : Grain → Grain) :
    (s.mapGrains f).outReg = s.outReg := rfl
@[simp] theorem State.mapGrains_status (s : State) (f : Grain → Grain) :
    (s.mapGrains f).status = s.status := rfl
@[simp] theorem State.mapGrains_fault (s : State) (f : Grain → Grain) :
    (s.mapGrains f).fault = s.fault := rfl
@[simp] theorem State.mapGrains_refusal (s : State) (f : Grain → Grain) :
    (s.mapGrains f).refusal = s.refusal := rfl
@[simp] theorem State.mapGrains_events (s : State) (f : Grain → Grain) :
    (s.mapGrains f).events = s.events := rfl
@[simp] theorem State.mapGrains_agents (s : State) (f : Grain → Grain) :
    (s.mapGrains f).agents = s.agents := rfl

/-! ### toggleStatus -/

@[simp] theorem State.toggleStatus_cfg (s : State) (i : Instr) :
    (s.toggleStatus i).cfg = s.cfg := rfl
@[simp] theorem State.toggleStatus_syncAcc (s : State) (i : Instr) :
    (s.toggleStatus i).syncAcc = s.syncAcc := rfl
@[simp] theorem State.toggleStatus_syncInc (s : State) (i : Instr) :
    (s.toggleStatus i).syncInc = s.syncInc := rfl
@[simp] theorem State.toggleStatus_g1 (s : State) (i : Instr) :
    (s.toggleStatus i).g1 = s.g1 := rfl
@[simp] theorem State.toggleStatus_g2 (s : State) (i : Instr) :
    (s.toggleStatus i).g2 = s.g2 := rfl
@[simp] theorem State.toggleStatus_delay (s : State) (i : Instr) :
    (s.toggleStatus i).delay = s.delay := rfl
@[simp] theorem State.toggleStatus_cursor (s : State) (i : Instr) :
    (s.toggleStatus i).cursor = s.cursor := rfl
@[simp] theorem State.toggleStatus_outReg (s : State) (i : Instr) :
    (s.toggleStatus i).outReg = s.outReg := rfl
@[simp] theorem State.toggleStatus_status (s : State) (i : Instr) :
    (s.toggleStatus i).status = !s.status := rfl
@[simp] theorem State.toggleStatus_fault (s : State) (i : Instr) :
    (s.toggleStatus i).fault = s.fault := rfl
@[simp] theorem State.toggleStatus_refusal (s : State) (i : Instr) :
    (s.toggleStatus i).refusal = s.refusal := rfl
@[simp] theorem State.toggleStatus_events (s : State) (i : Instr) :
    (s.toggleStatus i).events = s.events ++ [⟨i, .status (!s.status)⟩] := rfl
@[simp] theorem State.toggleStatus_agents (s : State) (i : Instr) :
    (s.toggleStatus i).agents = s.agents := rfl

/-! ### setStatus -/

@[simp] theorem State.setStatus_cfg (s : State) (i : Instr) (e : Bool) :
    (s.setStatus i e).cfg = s.cfg := rfl
@[simp] theorem State.setStatus_syncAcc (s : State) (i : Instr) (e : Bool) :
    (s.setStatus i e).syncAcc = s.syncAcc := rfl
@[simp] theorem State.setStatus_syncInc (s : State) (i : Instr) (e : Bool) :
    (s.setStatus i e).syncInc = s.syncInc := rfl
@[simp] theorem State.setStatus_g1 (s : State) (i : Instr) (e : Bool) :
    (s.setStatus i e).g1 = s.g1 := rfl
@[simp] theorem State.setStatus_g2 (s : State) (i : Instr) (e : Bool) :
    (s.setStatus i e).g2 = s.g2 := rfl
@[simp] theorem State.setStatus_delay (s : State) (i : Instr) (e : Bool) :
    (s.setStatus i e).delay = s.delay := rfl
@[simp] theorem State.setStatus_cursor (s : State) (i : Instr) (e : Bool) :
    (s.setStatus i e).cursor = s.cursor := rfl
@[simp] theorem State.setStatus_outReg (s : State) (i : Instr) (e : Bool) :
    (s.setStatus i e).outReg = s.outReg := rfl
@[simp] theorem State.setStatus_status (s : State) (i : Instr) (e : Bool) :
    (s.setStatus i e).status = e := rfl
@[simp] theorem State.setStatus_fault (s : State) (i : Instr) (e : Bool) :
    (s.setStatus i e).fault = s.fault := rfl
@[simp] theorem State.setStatus_refusal (s : State) (i : Instr) (e : Bool) :
    (s.setStatus i e).refusal = s.refusal := rfl
@[simp] theorem State.setStatus_events (s : State) (i : Instr) (e : Bool) :
    (s.setStatus i e).events = s.events ++ [⟨i, .status e⟩] := rfl
@[simp] theorem State.setStatus_agents (s : State) (i : Instr) (e : Bool) :
    (s.setStatus i e).agents = s.agents := rfl

/-! ### setOut -/

@[simp] theorem State.setOut_cfg (s : State) (i : Instr) (y : Byte) :
    (s.setOut i y).cfg = s.cfg := rfl
@[simp] theorem State.setOut_syncAcc (s : State) (i : Instr) (y : Byte) :
    (s.setOut i y).syncAcc = s.syncAcc := rfl
@[simp] theorem State.setOut_syncInc (s : State) (i : Instr) (y : Byte) :
    (s.setOut i y).syncInc = s.syncInc := rfl
@[simp] theorem State.setOut_g1 (s : State) (i : Instr) (y : Byte) :
    (s.setOut i y).g1 = s.g1 := rfl
@[simp] theorem State.setOut_g2 (s : State) (i : Instr) (y : Byte) :
    (s.setOut i y).g2 = s.g2 := rfl
@[simp] theorem State.setOut_delay (s : State) (i : Instr) (y : Byte) :
    (s.setOut i y).delay = s.delay := rfl
@[simp] theorem State.setOut_cursor (s : State) (i : Instr) (y : Byte) :
    (s.setOut i y).cursor = s.cursor := rfl
@[simp] theorem State.setOut_outReg (s : State) (i : Instr) (y : Byte) :
    (s.setOut i y).outReg = y := rfl
@[simp] theorem State.setOut_status (s : State) (i : Instr) (y : Byte) :
    (s.setOut i y).status = s.status := rfl
@[simp] theorem State.setOut_fault (s : State) (i : Instr) (y : Byte) :
    (s.setOut i y).fault = s.fault := rfl
@[simp] theorem State.setOut_refusal (s : State) (i : Instr) (y : Byte) :
    (s.setOut i y).refusal = s.refusal := rfl
@[simp] theorem State.setOut_events (s : State) (i : Instr) (y : Byte) :
    (s.setOut i y).events = s.events ++ [⟨i, .out y⟩] := rfl
@[simp] theorem State.setOut_agents (s : State) (i : Instr) (y : Byte) :
    (s.setOut i y).agents = s.agents := rfl

/-! ### setGrain_one -/

@[simp] theorem State.setGrain_one_cfg (s : State) (g : Grain) :
    (s.setGrain .one g).cfg = s.cfg := rfl
@[simp] theorem State.setGrain_one_syncAcc (s : State) (g : Grain) :
    (s.setGrain .one g).syncAcc = s.syncAcc := rfl
@[simp] theorem State.setGrain_one_syncInc (s : State) (g : Grain) :
    (s.setGrain .one g).syncInc = s.syncInc := rfl
@[simp] theorem State.setGrain_one_g1 (s : State) (g : Grain) :
    (s.setGrain .one g).g1 = g := rfl
@[simp] theorem State.setGrain_one_g2 (s : State) (g : Grain) :
    (s.setGrain .one g).g2 = s.g2 := rfl
@[simp] theorem State.setGrain_one_delay (s : State) (g : Grain) :
    (s.setGrain .one g).delay = s.delay := rfl
@[simp] theorem State.setGrain_one_cursor (s : State) (g : Grain) :
    (s.setGrain .one g).cursor = s.cursor := rfl
@[simp] theorem State.setGrain_one_outReg (s : State) (g : Grain) :
    (s.setGrain .one g).outReg = s.outReg := rfl
@[simp] theorem State.setGrain_one_status (s : State) (g : Grain) :
    (s.setGrain .one g).status = s.status := rfl
@[simp] theorem State.setGrain_one_fault (s : State) (g : Grain) :
    (s.setGrain .one g).fault = s.fault := rfl
@[simp] theorem State.setGrain_one_refusal (s : State) (g : Grain) :
    (s.setGrain .one g).refusal = s.refusal := rfl
@[simp] theorem State.setGrain_one_events (s : State) (g : Grain) :
    (s.setGrain .one g).events = s.events := rfl
@[simp] theorem State.setGrain_one_agents (s : State) (g : Grain) :
    (s.setGrain .one g).agents = s.agents := rfl

/-! ### setGrain_two -/

@[simp] theorem State.setGrain_two_cfg (s : State) (g : Grain) :
    (s.setGrain .two g).cfg = s.cfg := rfl
@[simp] theorem State.setGrain_two_syncAcc (s : State) (g : Grain) :
    (s.setGrain .two g).syncAcc = s.syncAcc := rfl
@[simp] theorem State.setGrain_two_syncInc (s : State) (g : Grain) :
    (s.setGrain .two g).syncInc = s.syncInc := rfl
@[simp] theorem State.setGrain_two_g1 (s : State) (g : Grain) :
    (s.setGrain .two g).g1 = s.g1 := rfl
@[simp] theorem State.setGrain_two_g2 (s : State) (g : Grain) :
    (s.setGrain .two g).g2 = g := rfl
@[simp] theorem State.setGrain_two_delay (s : State) (g : Grain) :
    (s.setGrain .two g).delay = s.delay := rfl
@[simp] theorem State.setGrain_two_cursor (s : State) (g : Grain) :
    (s.setGrain .two g).cursor = s.cursor := rfl
@[simp] theorem State.setGrain_two_outReg (s : State) (g : Grain) :
    (s.setGrain .two g).outReg = s.outReg := rfl
@[simp] theorem State.setGrain_two_status (s : State) (g : Grain) :
    (s.setGrain .two g).status = s.status := rfl
@[simp] theorem State.setGrain_two_fault (s : State) (g : Grain) :
    (s.setGrain .two g).fault = s.fault := rfl
@[simp] theorem State.setGrain_two_refusal (s : State) (g : Grain) :
    (s.setGrain .two g).refusal = s.refusal := rfl
@[simp] theorem State.setGrain_two_events (s : State) (g : Grain) :
    (s.setGrain .two g).events = s.events := rfl
@[simp] theorem State.setGrain_two_agents (s : State) (g : Grain) :
    (s.setGrain .two g).agents = s.agents := rfl

/-! ### grain -/

@[simp] theorem State.grain_one (s : State) : s.grain .one = s.g1 := rfl
@[simp] theorem State.grain_two (s : State) : s.grain .two = s.g2 := rfl
@[simp] theorem State.mapGrains_grain (s : State) (f : Grain → Grain) (k : GrainId) :
    (s.mapGrains f).grain k = f (s.grain k) := by cases k <;> rfl
@[simp] theorem State.setGrain_grain_same (s : State) (k : GrainId) (g : Grain) : (s.setGrain k g).grain k = g := by
  cases k <;> rfl

@[simp] theorem Grain.restart_acc (g : Grain) : g.restart.acc = 0 := rfl
@[simp] theorem Grain.restart_amp (g : Grain) : g.restart.amp = ampMax := rfl
@[simp] theorem Grain.restart_inc (g : Grain) : g.restart.inc = g.inc := rfl
@[simp] theorem Grain.restart_dec (g : Grain) : g.restart.dec = g.dec := rfl
@[simp] theorem Grain.advance_acc (g : Grain) : g.advance.acc = g.acc + g.inc := rfl
@[simp] theorem Grain.advance_amp (g : Grain) : g.advance.amp = g.amp := rfl
@[simp] theorem Grain.advance_inc (g : Grain) : g.advance.inc = g.inc := rfl
@[simp] theorem Grain.advance_dec (g : Grain) : g.advance.dec = g.dec := rfl

/-! ### powerOn -/

@[simp] theorem State.powerOn_cfg (c : Config) (d : Memory) (p : Agents) :
    (State.powerOn c d p).cfg = c := rfl
@[simp] theorem State.powerOn_syncAcc (c : Config) (d : Memory) (p : Agents) :
    (State.powerOn c d p).syncAcc = 0 := rfl
@[simp] theorem State.powerOn_syncInc (c : Config) (d : Memory) (p : Agents) :
    (State.powerOn c d p).syncInc = 0 := rfl
@[simp] theorem State.powerOn_g1 (c : Config) (d : Memory) (p : Agents) :
    (State.powerOn c d p).g1 = Grain.zero := rfl
@[simp] theorem State.powerOn_g2 (c : Config) (d : Memory) (p : Agents) :
    (State.powerOn c d p).g2 = Grain.zero := rfl
@[simp] theorem State.powerOn_delay (c : Config) (d : Memory) (p : Agents) :
    (State.powerOn c d p).delay = d := rfl
@[simp] theorem State.powerOn_cursor (c : Config) (d : Memory) (p : Agents) :
    (State.powerOn c d p).cursor = 0 := rfl
@[simp] theorem State.powerOn_outReg (c : Config) (d : Memory) (p : Agents) :
    (State.powerOn c d p).outReg = 0 := rfl
@[simp] theorem State.powerOn_status (c : Config) (d : Memory) (p : Agents) :
    (State.powerOn c d p).status = false := rfl
@[simp] theorem State.powerOn_fault (c : Config) (d : Memory) (p : Agents) :
    (State.powerOn c d p).fault = none := rfl
@[simp] theorem State.powerOn_refusal (c : Config) (d : Memory) (p : Agents) :
    (State.powerOn c d p).refusal = none := rfl
@[simp] theorem State.powerOn_events (c : Config) (d : Memory) (p : Agents) :
    (State.powerOn c d p).events = [] := rfl
@[simp] theorem State.powerOn_agents (c : Config) (d : Memory) (p : Agents) :
    (State.powerOn c d p).agents = p := rfl

end Sys2Proof.Machine
end

