-- ==== Sys2Proof/Laws/Tick.lean ====
section
/-!
SUPPORT. What each stage of TICK does, once per stage, and what a TICK can answer.
-/

namespace Sys2Proof.Machine

/-- The comparison of S1 says exactly that the add carried, where the new value is that add's. -/
theorem wrapped_add (a i : Half) : wrapped (a + i) i = true ↔ 65536 ≤ a.toNat + i.toNat := by
  simp only [wrapped, decide_eq_true_eq, BitVec.toNat_add]
  have := a.isLt; have := i.isLt
  omega

theorem subExact_eq_some {a b c : Nat} : subExact a b = some c ↔ b ≤ a ∧ a - b = c := by
  unfold subExact; split <;> simp [*]

/-- S5's product never exceeds the amplitude (R131). -/
theorem Grain.weight_mul_dec_le (g : Grain) : g.weight * g.dec.toNat ≤ g.amp.toNat := by
  have hd : g.dec.toNat ≤ 256 := by have := g.dec.isLt; omega
  calc g.weight * g.dec.toNat ≤ g.weight * 256 := Nat.mul_le_mul_left _ hd
    _ ≤ g.amp.toNat := by unfold Grain.weight; rw [Nat.shiftRight_eq_div_pow]; omega

/-- One grain after S5. -/
def Grain.decayed (g : Grain) : Grain := { g with amp := BitVec.ofNat 15 (g.amp.toNat - g.weight * g.dec.toNat) }

@[simp] theorem Grain.decayed_acc (g : Grain) : g.decayed.acc = g.acc := rfl
@[simp] theorem Grain.decayed_inc (g : Grain) : g.decayed.inc = g.inc := rfl
@[simp] theorem Grain.decayed_dec (g : Grain) : g.decayed.dec = g.dec := rfl

theorem Grain.decayed_amp (g : Grain) : g.decayed.amp.toNat = g.amp.toNat - g.amp.toNat / 256 * g.dec.toNat := by
  have := g.amp.isLt
  simp only [Grain.decayed, Grain.weight, BitVec.toNat_ofNat, Nat.shiftRight_eq_div_pow]
  exact Nat.mod_eq_of_lt (by omega)

/-- S5 never raises. -/
theorem Grain.decay_eq (g : Grain) : g.decay = some g.decayed := by
  unfold Grain.decay subExact
  rw [if_pos g.weight_mul_dec_le]; rfl

theorem decayGrains_eq (s : State) : decayGrains s = some (s.mapGrains Grain.decayed) := by
  simp only [decayGrains, Grain.decay_eq]; rfl

/-! ### S1-S3 -/

/-- Whether S1 of this tick retriggers. -/
def State.retriggers (s : State) : Bool := wrapped (s.syncAcc + s.syncInc) s.syncInc

theorem State.retriggers_iff (s : State) : s.retriggers = true ↔ 65536 ≤ s.syncAcc.toNat + s.syncInc.toNat :=
  wrapped_add _ _

theorem oscillatorStages_eq (i : Instr) (s : State) :
    oscillatorStages i s = (retrigger i s.retriggers (syncAdvance s)).mapGrains Grain.advance := rfl

theorem oscillatorStages_grain (i : Instr) (s : State) (k : GrainId) :
    (oscillatorStages i s).grain k =
      (if s.retriggers then (s.grain k).restart else s.grain k).advance := by
  rw [oscillatorStages_eq]
  unfold retrigger
  cases s.retriggers <;> cases k <;> rfl

theorem oscillatorStages_frame (i : Instr) (s : State) :
    (oscillatorStages i s).cfg = s.cfg ∧ (oscillatorStages i s).syncInc = s.syncInc ∧
    (oscillatorStages i s).syncAcc = s.syncAcc + s.syncInc ∧ (oscillatorStages i s).delay = s.delay ∧
    (oscillatorStages i s).cursor = s.cursor ∧ (oscillatorStages i s).outReg = s.outReg ∧
    (oscillatorStages i s).fault = s.fault ∧ (oscillatorStages i s).refusal = s.refusal ∧
    (oscillatorStages i s).agents = s.agents := by
  rw [oscillatorStages_eq]
  unfold retrigger
  cases s.retriggers <;> exact ⟨rfl, rfl, rfl, rfl, rfl, rfl, rfl, rfl, rfl⟩

theorem oscillatorStages_events (i : Instr) (s : State) :
    (oscillatorStages i s).events = s.events ++ (if s.retriggers then [⟨i, .status (!s.status)⟩] else []) := by
  rw [oscillatorStages_eq]
  unfold retrigger
  cases s.retriggers <;> simp [syncAdvance]

/-! ### S4 -/

/-- m[k] as a number (R124). -/
theorem Grain.magnitude_toNat (t : TriLsb) (g : Grain) :
    (g.magnitude t).toNat =
      if 32768 ≤ g.acc.toNat then 255 - g.acc.toNat / 2 ^ t.bit % 256 else g.acc.toNat / 2 ^ t.bit % 256 := by
  have hm : g.acc.msb = true ↔ 32768 ≤ g.acc.toNat := by
    rw [BitVec.msb_eq_decide]; simp
  unfold Grain.magnitude
  by_cases h : 32768 ≤ g.acc.toNat
  · simp only [hm.2 h, h, if_true, BitVec.toNat_not]
    simp [Nat.shiftRight_eq_div_pow]
  · have h' : g.acc.msb = false := Bool.eq_false_iff.2 fun x => h (hm.1 x)
    rw [if_neg h, h']
    simp [Nat.shiftRight_eq_div_pow]

/-! ### S6-S7 -/

theorem scaleSample_toNat (shift sum : Nat) : (scaleSample shift sum).toNat = min (sum / 2 ^ shift) 255 := by
  simp only [scaleSample, BitVec.toNat_ofNat, Nat.shiftRight_eq_div_pow]
  exact Nat.mod_eq_of_lt (Nat.lt_of_le_of_lt (Nat.min_le_right _ _) (by decide))

theorem echoMean_toNat (a b : Byte) : (echoMean a b).toNat = (a.toNat + b.toNat) / 2 := by
  have := a.isLt; have := b.isLt
  simp only [echoMean, BitVec.toNat_ofNat, Nat.shiftRight_eq_div_pow]
  omega

/-- The equality wrap equals the modulo on every reachable cursor (R152). -/
theorem advanceCursor_toNat {c : Half} (h : c.toNat < delayLen) : (advanceCursor c).toNat = (c.toNat + 1) % 2048 := by
  unfold delayLen at h
  have hc : (c + 1).toNat = c.toNat + 1 := by rw [BitVec.toNat_add]; simp; omega
  unfold advanceCursor delayLen
  split
  · rename_i hw; rw [hc] at hw; simp; omega
  · rename_i hw; rw [hc] at hw ⊢; omega

/-- What S7 does: nothing without echo; with it, the mean goes out and into the cell, and the cursor advances, or the access
raises (R150, R151, R159). -/
theorem echoStage_false (sample : Byte) (s : State) : echoStage false sample s = some (sample, s) := rfl

theorem echoStage_true {sample : Byte} {s : State} (h : s.cursor.toNat < delayLen) :
    echoStage true sample s =
      some (echoMean sample (s.delay.get s.cursor.toNat),
        { s with
          delay := s.delay.put s.cursor.toNat (echoMean sample (s.delay.get s.cursor.toNat))
          cursor := advanceCursor s.cursor }) := by
  simp [echoStage, memRead, memWrite, h]

theorem echoStage_true_none {sample : Byte} {s : State} (h : delayLen ≤ s.cursor.toNat) :
    echoStage true sample s = none := by
  simp [echoStage, memRead, Nat.not_lt.2 h]

/-! ### S8 -/

theorem outputStage_fields (i : Instr) (e : Bool) (y : Byte) (s : State) :
    (outputStage i e y s).outReg = y ∧ (outputStage i e y s).status = e ∧
    (outputStage i e y s).cfg = s.cfg ∧ (outputStage i e y s).syncAcc = s.syncAcc ∧
    (outputStage i e y s).syncInc = s.syncInc ∧ (outputStage i e y s).g1 = s.g1 ∧ (outputStage i e y s).g2 = s.g2 ∧
    (outputStage i e y s).delay = s.delay ∧ (outputStage i e y s).cursor = s.cursor ∧
    (outputStage i e y s).fault = s.fault ∧ (outputStage i e y s).refusal = s.refusal ∧
    (outputStage i e y s).agents = s.agents := by
  unfold outputStage
  split <;> exact ⟨rfl, rfl, rfl, rfl, rfl, rfl, rfl, rfl, rfl, rfl, rfl, rfl⟩

theorem outputStage_events (i : Instr) (e : Bool) (y : Byte) (s : State) :
    (outputStage i e y s).events = s.events ++
      match s.cfg.s8Order with
      | .outFirst => [⟨i, .out y⟩, ⟨i, .status e⟩]
      | .statusFirst => [⟨i, .status e⟩, ⟨i, .out y⟩] := by
  unfold outputStage
  split <;> simp_all

/-! ### The operation -/

/-- The state after S1-S5 of a tick. -/
def afterDecay (i : Instr) (s : State) : State := (oscillatorStages i s).mapGrains Grain.decayed

/-- The sample of S6 of a tick. -/
def tickSample (i : Instr) (s : State) : Byte :=
  scaleSample (oscillatorStages i s).cfg.outShift (grainSum (oscillatorStages i s))

/-- TICK without echo always completes. -/
theorem execTick_false (s : State) :
    execTick false s =
      .next (outputStage (.tick false) false (tickSample (.tick false) s) (afterDecay (.tick false) s)) := by
  simp only [execTick, decayGrains_eq, echoStage_false]; rfl

/-- TICK with echo completes where the cursor is a cell. -/
theorem execTick_true {s : State} (h : s.cursor.toNat < delayLen) :
    execTick true s =
      .next (outputStage (.tick true) true (echoMean (tickSample (.tick true) s) (s.delay.get s.cursor.toNat))
        { afterDecay (.tick true) s with
          delay := s.delay.put s.cursor.toNat (echoMean (tickSample (.tick true) s) (s.delay.get s.cursor.toNat))
          cursor := advanceCursor s.cursor }) := by
  have hd : ((oscillatorStages (.tick true) s).mapGrains Grain.decayed).delay = s.delay :=
    (oscillatorStages_frame (.tick true) s).2.2.2.1
  have hc : ((oscillatorStages (.tick true) s).mapGrains Grain.decayed).cursor = s.cursor :=
    (oscillatorStages_frame (.tick true) s).2.2.2.2.1
  simp only [execTick, decayGrains_eq]
  rw [echoStage_true (by rw [hc]; exact h), hd, hc]
  rfl

/-- TICK with echo raises where it is not, and leaves all else as it was (R159, R202). -/
theorem execTick_true_raises {s : State} (h : delayLen ≤ s.cursor.toNat) :
    execTick true s = .next { s with fault := some (.cursorOutOfRange (.tick true)) } := by
  have hc : ((oscillatorStages (.tick true) s).mapGrains Grain.decayed).cursor = s.cursor :=
    (oscillatorStages_frame (.tick true) s).2.2.2.2.1
  simp only [execTick, decayGrains_eq]
  rw [echoStage_true_none (by rw [hc]; exact h)]
  rfl

end Sys2Proof.Machine
end

