-- ==== Sys2Proof/Laws/Step.lean ====
section
/-!
SUPPORT. What one step can do, said once; what the agents' operations do to the lists; how runs unfold.
-/

namespace Sys2Proof.Machine

/-! ### Agents' lists -/

@[simp] theorem Agents.setList_listOf_same (p : Agents) (a : Agent) (l : List CommandWord) : (p.setList a l).listOf a = l := by
  cases a <;> rfl

theorem Agents.setList_listOf_other (p : Agents) {a b : Agent} (h : b ≠ a) (l : List CommandWord) :
    (p.setList a l).listOf b = p.listOf b := by
  cases a <;> cases b <;> first | rfl | exact absurd rfl h

@[simp] theorem Agents.setList_schedule (p : Agents) (a : Agent) (l : List CommandWord) :
    (p.setList a l).schedule = p.schedule := by cases a <;> rfl

@[simp] theorem Agents.setList_setList (p : Agents) (a : Agent) (l l' : List CommandWord) :
    (p.setList a l).setList a l' = p.setList a l' := by cases a <;> rfl

@[simp] theorem Agents.setList_self (p : Agents) (a : Agent) : p.setList a (p.listOf a) = p := by cases a <;> rfl

/-- The operation put first is the next one. -/
theorem Agents.nextOp_issueNext (p : Agents) (a : Agent) (w : CommandWord) : (p.issueNext a w).nextOp = some (a, w) := by
  cases a <;> rfl

/-- Issuing the operation that was put first gives the lists back. -/
theorem Agents.issued_issueNext (p : Agents) (a : Agent) (w : CommandWord) : (p.issueNext a w).issued a = p := by
  cases a <;> rfl

/-- The next operation is in its agent's list. -/
theorem Agents.mem_of_nextOp {p : Agents} {a : Agent} {w : CommandWord} (h : p.nextOp = some (a, w)) : w ∈ p.listOf a := by
  unfold Agents.nextOp at h
  split at h
  · cases h
  · split at h
    · cases h
    · rename_i hh; cases h; rw [hh]; simp

theorem Agents.issued_listOf (p : Agents) (a b : Agent) :
    (p.issued a).listOf b = if b = a then (p.listOf a).tail else p.listOf b := by
  cases a <;> cases b <;> rfl

/-- Lawful lists, agent by agent. -/
theorem Agents.lawful_iff (p : Agents) : p.lawful = true ↔ ∀ a, ∀ w ∈ p.listOf a, wordFor a w = true := by
  simp only [Agents.lawful, Bool.and_eq_true, List.all_eq_true]
  constructor
  · intro h a
    cases a
    · exact h.1.1
    · exact h.1.2
    · exact h.2
  · intro h; exact ⟨⟨h .main, h .ticker⟩, h .host⟩

/-! ### Marks -/

@[simp] theorem State.retire_of_marked {s : State} (a : Agent) (h : s.marked = true) : s.retire a = s := by
  simp [State.retire, h]

theorem State.retire_of_unmarked {s : State} (a : Agent) (h : s.marked = false) :
    s.retire a = { s with agents := s.agents.issued a } := by
  simp [State.retire, h]

theorem State.marked_eq_false {s : State} : s.marked = false ↔ s.fault = none ∧ s.refusal = none := by
  simp [State.marked]

/-! ### The step -/

/-- What a step that answers a next state has done, and from what. -/
theorem step_cases {s t : State} (h : step s = .next t) :
    s.fault = none ∧ s.refusal = none ∧
    ((s.agents.nextOp = none ∧ t = { s with agents := s.agents.pass }) ∨
     ∃ a w, s.agents.nextOp = some (a, w) ∧
      ((∃ d, decode w = .error d ∧ t = { s with fault := some (decodeFault d w) }) ∨
       ∃ i, decode w = .ok i ∧
        ((i.agent ≠ a ∧ t = { s with refusal := some (.wrongAgent a i) }) ∨
         (i.agent = a ∧ ∃ u, exec i s = .next u ∧ t = u.retire a)))) := by
  unfold step at h
  split at h
  · cases h
  · rename_i hf
    split at h
    · cases h
    · rename_i hr
      refine ⟨hf, hr, ?_⟩
      split at h
      · rename_i hn; cases h; exact .inl ⟨hn, rfl⟩
      · rename_i a w hn
        refine .inr ⟨a, w, hn, ?_⟩
        unfold stepOp at h
        split at h
        · rename_i d hd; cases h; exact .inl ⟨d, hd, rfl⟩
        · rename_i i hd
          refine .inr ⟨i, hd, ?_⟩
          split at h
          · rename_i ha
            split at h
            · rename_i u hu; cases h; exact .inr ⟨ha, u, hu, rfl⟩
            · cases h
            · cases h
          · rename_i ha; cases h; exact .inl ⟨ha, rfl⟩

/-- A step of an unmarked state whose next operation is given. -/
theorem step_of_nextOp {s : State} {a : Agent} {w : CommandWord} (hm : s.marked = false)
    (hn : s.agents.nextOp = some (a, w)) : step s = stepOp a w s := by
  obtain ⟨hf, hr⟩ := State.marked_eq_false.1 hm
  simp only [step, hf, hr, hn]

/-! ### Runs -/

/-- `stepN` is the host's run of the machine. -/
theorem stepN_eq_run (n : Nat) (s : State) : stepN n s = Host.Core.run Sys2Proof.core n s := by
  induction n generalizing s with
  | zero => rfl
  | succ n ih =>
    cases h : step s with
    | next t =>
      have h' : Sys2Proof.core.step s = .next t := h
      simp only [stepN, h, Host.Core.run, h']
      exact ih t
    | fault r =>
      have h' : Sys2Proof.core.step s = .fault r := h
      simp only [stepN, h, Host.Core.run, h']
      rfl
    | refused r =>
      have h' : Sys2Proof.core.step s = .refused r := h
      simp only [stepN, h, Host.Core.run, h']
      rfl

theorem execAll_nil (s : State) : execAll [] s = some s := rfl

theorem execAll_cons_eq_some {i : Instr} {is : List Instr} {s t : State} :
    execAll (i :: is) s = some t ↔ ∃ u, exec i s = .next u ∧ u.marked = false ∧ execAll is u = some t := by
  simp only [execAll]
  cases h : exec i s with
  | next u =>
    by_cases hu : u.marked = true
    · simp [hu]
    · simp [hu]
  | fault r => simp
  | refused r => simp

/-- What every step keeps, every run of steps keeps. -/
theorem stepN_keeps {P : State → Prop} (hstep : ∀ s t, P s → step s = .next t → P t) :
    ∀ n s t, P s → stepN n s = .next t → P t := by
  intro n
  induction n with
  | zero => intro s t hs h; cases h; exact hs
  | succ n ih =>
    intro s t hs h
    simp only [stepN] at h
    split at h
    · rename_i u hu; exact ih u t (hstep s u hs hu) h
    · cases h
    · cases h

end Sys2Proof.Machine
end

