-- ==== Sys2Proof/Tests/Slice0.lean ====
section
/-!
SUPPORT. The model's own tests. Expected values come from the vectors and examples of spec/95_test_vectors.md and from the
examples of the rules; each test names its source. After them: one witness for the hypotheses of each statement of
Certificates/Slice0/Obligations.lean that has some, clause by clause at a boundary where a statement has several.
-/

namespace Sys2Proof.Machine

/-! ## Helpers -/

/-- A next state that satisfies `f`. -/
def after (o : Host.Outcome State Fault Refusal) (f : State → Bool) : Bool :=
  match o with
  | .next t => f t
  | _ => false

/-- A stop for the fault `r`. -/
def stopsWith (o : Host.Outcome State Fault Refusal) (r : Fault) : Bool :=
  match o with
  | .fault x => x == r
  | _ => false

/-- The default instance after power-on, one operation waiting. -/
def waiting (a : Agent) (w : CommandWord) : State := { State.reset with agents := Agents.idle.issueNext a w }

/-- A state for TICK: sync accumulator and increment, and the two grains. -/
def oscillating (acc inc : Half) (h1 h2 : Grain) : State :=
  { State.reset with syncAcc := acc, syncInc := inc, g1 := h1, g2 := h2 }

/-! ## Decoding (spec/95 §2.1; the words of spec/43 R170-R174 and of programs P1, P5) -/

theorem test_decode_wrSyncInc : decode 0x18000 = .ok (.wrSyncInc 0x8000) := by decide
theorem test_decode_wrG1Inc : decode 0x21000 = .ok (.wrG1Inc 0x1000) := by decide
theorem test_decode_wrG1Dec_ignores_upper : decode 0x30155 = .ok (.wrG1Dec 0x55) := by decide
theorem test_decode_wrG2Inc : decode 0x40800 = .ok (.wrG2Inc 0x0800) := by decide
theorem test_decode_wrG2Dec_ignores_upper : decode 0x50100 = .ok (.wrG2Dec 0) := by decide
theorem test_decode_tick_on : decode 0x80001 = .ok (.tick true) := by decide
theorem test_decode_tick_off : decode 0x80000 = .ok (.tick false) := by decide
theorem test_decode_mapLog : decode 0x903FF = .ok (.mapLog 1023) := by decide
theorem test_decode_mapChrom : decode 0xA0200 = .ok (.mapChrom 512) := by decide
theorem test_decode_mapPenta : decode 0xB03FF = .ok (.mapPenta 1023) := by decide
theorem test_decode_reset : decode 0xF0000 = .ok .reset := by decide
theorem test_decode_tick_reserved : decode 0x80002 = .error .reservedOperand := by decide
theorem test_decode_map_reserved : decode 0x90400 = .error .reservedOperand := by decide
theorem test_decode_reset_reserved : decode 0xF0001 = .error .reservedOperand := by decide
theorem test_decode_opcode0 : decode 0x00000 = .error .reservedOpcode := by decide
theorem test_decode_opcode6 : decode 0x61234 = .error .reservedOpcode := by decide
theorem test_decode_opcodeE : decode 0xE0000 = .error .reservedOpcode := by decide
theorem test_encode_wrG1Dec : encode (.wrG1Dec 1) = 0x30001 := by decide
theorem test_encode_mapLog : encode (.mapLog 64) = 0x90040 := by decide
theorem test_table_word : decodeTableWord 24 0x90040 = some (.mapLog 64) := by decide
theorem test_table_word_too_wide : decodeTableWord 24 0x190040 = none := by decide

/-! ## Well-formedness: one ill-formed term for each check -/

theorem test_word_wf : wordWellFormed 0x80001 = true := by decide
theorem test_word_ill_opcode : wordWellFormed 0xC0000 = false := by decide
theorem test_word_ill_tick : wordWellFormed 0x88000 = false := by decide
theorem test_word_ill_map : wordWellFormed 0xB8000 = false := by decide
theorem test_word_ill_reset : wordWellFormed 0xF8000 = false := by decide
theorem test_wordFor : wordFor .ticker 0x80000 = true := by decide
theorem test_wordFor_ill : wordFor .main 0x80000 = false := by decide
theorem test_asm_ill_imm16 : (AsmOp.wrSync 65536).wellFormed = false := by decide
theorem test_asm_ill_g1inc : (AsmOp.wrG1Inc 65536).wellFormed = false := by decide
theorem test_asm_ill_g2inc : (AsmOp.wrG2Inc 65536).wellFormed = false := by decide
theorem test_asm_ill_g1dec : (AsmOp.wrG1Dec 256).wellFormed = false := by decide
theorem test_asm_ill_g2dec : (AsmOp.wrG2Dec 256).wellFormed = false := by decide
theorem test_asm_ill_tick : (AsmOp.tick 2).wellFormed = false := by decide
theorem test_asm_ill_log : (AsmOp.mapLog 1024).wellFormed = false := by decide
theorem test_asm_ill_chrom : (AsmOp.mapChrom 1024).wellFormed = false := by decide
theorem test_asm_ill_pent : (AsmOp.mapPent 1024).wellFormed = false := by decide
theorem test_asm_ill_params : (AsmOp.wrParams 0 0 256 0 0).wellFormed = false := by decide
theorem test_asm_ill_ticks : (AsmOp.ticks 3 2).wellFormed = false := by decide
theorem test_asm_ill_voice1 : (AsmOp.wrVoice1 65536 0).wellFormed = false := by decide
theorem test_asm_ill_voice2 : (AsmOp.wrVoice2 0 256).wellFormed = false := by decide
theorem test_memory_ill_order : Memory.wf [(5, 1), (4, 1)] = false := by decide
theorem test_memory_ill_index : Memory.wf [(2048, 1)] = false := by decide
theorem test_memory_ill_zero : Memory.wf [(4, 0)] = false := by decide

/-! ## Assembler (spec/30 R86, R87; the lines of P1, P5) -/

theorem test_parse_prefix_comment :
    parseLine "main: wr.sync 0x8000 ; c".toList = some [⟨some .main, .wrSync 0x8000⟩] := by decide
theorem test_parse_decimal : parseLine "map.log 64".toList = some [⟨none, .mapLog 64⟩] := by decide
theorem test_parse_pseudo : parseLine "ticks 3, 0".toList = some [⟨none, .ticks 3 0⟩] := by decide
theorem test_parse_error : parseLine "wr.sync".toList = none := by decide
theorem test_assemble_line : assembleLine ⟨none, .wrG1Inc 0x7E9F⟩ = some [(.main, 0x27E9F)] := by decide
theorem test_assemble_prefixed : assembleLine ⟨some .host, .tick 1⟩ = some [(.host, 0x80001)] := by decide
theorem test_assemble_out_of_range : assembleLine ⟨none, .tick 2⟩ = none := by decide

/-! ## Parameter writes (spec/95 §2.3) -/

theorem test_wrSyncInc : after (exec (.wrSyncInc 0xFFFF) { State.reset with syncInc := 0x1111 })
    (fun t => t.syncInc == 0xFFFF) = true := by decide
theorem test_wrG1Inc : after (exec (.wrG1Inc 0x1000) State.reset)
    (fun t => t.g1 == ⟨0, 0, 0x1000, 0⟩ && t.g2 == Grain.zero) = true := by decide
theorem test_wrG1Dec_word : after (step { waiting .main 0x30155 with g1 := ⟨0, 0, 0, 9⟩ })
    (fun t => t.g1.dec == 0x55) = true := by decide
theorem test_wrG2Inc_keeps_phase : after (exec (.wrG2Inc 0) { State.reset with g2 := ⟨0x1234, 0, 5, 0⟩ })
    (fun t => t.g2 == ⟨0x1234, 0, 0, 0⟩) = true := by decide
theorem test_wrG2Dec_word : after (step { waiting .main 0x50100 with g2 := ⟨0, 0, 0, 9⟩ })
    (fun t => t.g2.dec == 0) = true := by decide

/-! ## Mapper (spec/95 §2.2; values of the default tables) -/

theorem test_mapLog_64 : after (exec (.mapLog 64) State.reset)
    (fun t => t.events == [⟨.mapLog 64, .mapResult 32415⟩]) = true := by decide
theorem test_mapLog_1023 : (logIncrement defaultConfig 1023).toNat = 1 := by decide
theorem test_mapChrom_512 : after (exec (.mapChrom 512) State.reset)
    (fun t => t.events == [⟨.mapChrom 512, .mapResult 652⟩]) = true := by decide
theorem test_mapChrom_1015 : chromIncrement defaultConfig 1015 = 18 := by decide
theorem test_mapPenta_17 : after (exec (.mapPenta 17) State.reset)
    (fun t => t.events == [⟨.mapPenta 17, .mapResult 22121⟩]) = true := by decide
theorem test_mapPenta_1005 : pentaIncrement defaultConfig 1005 = 0 := by decide

/-! ## TICK -/

/-- Spec/95 §2.6, V5: the whole retriggering tick. -/
theorem test_tick_v5 : after (exec (.tick true)
      { oscillating 0xFFF0 0x0010 ⟨0, 0, 0x0200, 4⟩ ⟨0, 0, 0x0300, 0⟩ with status := true })
    (fun t => t.syncAcc == 0 && t.g1 == ⟨0x0200, 0x7E03, 0x0200, 4⟩ && t.g2 == ⟨0x0300, 0x7FFF, 0x0300, 0⟩ &&
      t.cursor == 1 && t.outReg == 0 && t.status &&
      statusEvents t.events == [false, true] && outEvents t.events == [0]) = true := by decide

/-- Spec/95 §2.5, V4: fold and decay. -/
theorem test_tick_v4 : after (exec (.tick false) (oscillating 0 0 ⟨0xC000, 0x4000, 0, 3⟩ ⟨0x4000, 0x0123, 0, 200⟩))
    (fun t => t.g1.amp == 0x3F40 && t.g2.amp == 0x005B && t.outReg == 8) = true := by decide

/-- Spec/95 §2.5, V1: the clamp, with `OUT_SHIFT` 6. -/
theorem test_scale_clamps : scaleSample 6 32258 = 255 := by decide

/-- Spec/95 §2.5, V3: `TRI_LSB` 7 on 0x7FFF. -/
theorem test_triangle_seven : Grain.magnitude .seven ⟨0x7FFF, 0, 0, 0⟩ = 255 := by decide

/-- Spec/95 §2.5: 0x80FF under `TRI_LSB` 8. -/
theorem test_triangle_eight : Grain.magnitude .eight ⟨0x80FF, 0, 0, 0⟩ = 127 := by decide

/-- Spec/95 §2.4: sync vectors. -/
theorem test_wrapped_ffff_1 : wrapped (0xFFFF + 1) 1 = true := by decide
theorem test_wrapped_0_ffff : wrapped (0 + 0xFFFF) 0xFFFF = false := by decide

/-- Spec/95 §2.6: the means. -/
theorem test_mean_100_51 : echoMean 100 51 = 75 := by decide
theorem test_mean_0_255 : echoMean 0 255 = 127 := by decide

/-- Spec/95 P3, line 1: the wrap of the cursor at the end of the ring. -/
theorem test_cursor_wraps : after (exec (.tick true)
      { State.reset with cursor := 2047, delay := [(0, 10), (2047, 40)] })
    (fun t => t.cursor == 0 && t.outReg == 20 && t.delay == [(0, 10), (2047, 20)]) = true := by decide

/-- Spec/95 §2.6: a launch with cursor 2048 faults with e = 1 and does not with e = 0. -/
theorem test_cursor_out_of_range : after (exec (.tick true) { State.reset with cursor := 2048 })
    (fun t => t.fault == some (.cursorOutOfRange (.tick true)) && t.syncAcc == 0 && t.events == []) = true := by decide
theorem test_cursor_out_of_range_dry : after (exec (.tick false) { State.reset with cursor := 2048 })
    (fun t => t.fault == none && t.cursor == 2048) = true := by decide

/-- Both orders of S8's events: R120's example with `statusFirst`, V5's with `outFirst` (log 12). -/
theorem test_s8_statusFirst : after (exec (.tick false) { State.reset with
      cfg := { defaultConfig with s8Order := .statusFirst } })
    (fun t => t.events == [⟨.tick false, .status false⟩, ⟨.tick false, .out 0⟩]) = true := by decide
theorem test_s8_outFirst : after (exec (.tick false) State.reset)
    (fun t => t.events == [⟨.tick false, .out 0⟩, ⟨.tick false, .status false⟩]) = true := by decide

/-! ## RESET and the marks (spec/95 §2.7; spec/60 R202; spec/30 R88) -/

theorem test_reset : after (exec .reset { oscillating 7 8 ⟨1, 2, 3, 4⟩ ⟨5, 6, 7, 8⟩ with
      delay := [(7, 99)], cursor := 3, outReg := 9, status := true })
    (fun t => (t.syncAcc, t.syncInc, t.cursor) == (0, 0, 0) && (t.g1, t.g2) == (Grain.zero, Grain.zero) &&
      (t.outReg, t.status) == (0, false) && t.delay == [(7, 99)]) = true := by decide
theorem test_reset_of_faulted : stopsWith (step { waiting .host 0xF0000 with fault := some (.reservedOpcode 0) })
    (.reservedOpcode 0) = true := by decide
theorem test_reserved_marks : after (step (waiting .main 0x61234))
    (fun t => t.fault == some (.reservedOpcode 0x61234)) = true := by decide
theorem test_wrong_agent_marks : after (step (waiting .ticker 0xF0000))
    (fun t => t.refusal == some (.wrongAgent .ticker .reset)) = true := by decide

/-- The host's way in: the placed word is the first operation after reset, and no list is left. -/
theorem test_withFetchWord : after (step (State.reset.withFetchWord 24 0x80001))
    (fun t => t.cursor == 1 && t.agents == Agents.idle) = true := by decide

/-- Spec/95 P1, lines 2 and 3, as lists of one order. -/
theorem test_ofOrder : (Agents.ofOrder [(.main, 0x18000), (.ticker, 0x80000), (.main, 0x21000)]) =
    ⟨[0x18000, 0x21000], [0x80000], [], [.main, .ticker, .main]⟩ := by decide

/-! ## Witnesses: the hypotheses of every statement are met by a concrete state and operands -/

theorem witness_EncodeOfDecodeIsTheWordLessIgnoredBits :
    decode 0x301FF = .ok (.wrG1Dec 0xFF) ∧ decode 0x1FFFF = .ok (.wrSyncInc 0xFFFF) := by decide

theorem witness_DecodeFollowsTheOpcodeMap :
    (∃ r ∈ opRows, (0xF0000 : CommandWord) &&& r.mask = r.pattern) ∧
    (∀ r ∈ opRows, (0x70000 : CommandWord) &&& r.mask ≠ r.pattern) := by decide

theorem witness_OperandsAreTheirFields :
    decode 0x1FFFF = .ok (.wrSyncInc 0xFFFF) ∧ decode 0x5FFFF = .ok (.wrG2Dec 0xFF) ∧
    decode 0x80001 = .ok (.tick true) ∧ decode 0xA03FF = .ok (.mapChrom 1023) ∧ decode 0xF0000 = .ok .reset := by decide

theorem witness_ReservedEncodingsRaiseTheirFault :
    ((0xEFFFF : CommandWord).toNat / 65536 ∈ [0x0, 0x6, 0x7, 0xC, 0xD, 0xE]) ∧
    ((0x80002 : CommandWord).toNat / 65536 = 0x8 ∧ (0x80002 : CommandWord).toNat % 65536 / 2 ≠ 0) ∧
    ((0xB0400 : CommandWord).toNat / 65536 ∈ [0x9, 0xA, 0xB] ∧ (0xB0400 : CommandWord).toNat % 65536 / 1024 ≠ 0) ∧
    ((0xF0001 : CommandWord).toNat / 65536 = 0xF ∧ (0xF0001 : CommandWord).toNat % 65536 ≠ 0) ∧
    ((0x5FF00 : CommandWord).toNat / 65536 ∈ [0x3, 0x5]) ∧
    ((waiting .main 0x00000).marked = false ∧ (waiting .main 0x00000).agents.nextOp = some (.main, 0x00000) ∧
      decode 0x00000 = .error .reservedOpcode) ∧
    ((waiting .host 0xF0001).marked = false ∧ (waiting .host 0xF0001).agents.nextOp = some (.host, 0xF0001) ∧
      decode 0xF0001 = .error .reservedOperand) := by decide

/-- A table in pitch order: every entry the same. -/
theorem witness_MapsNeverRiseWithTheReading :
    Config.pitchOrdered { defaultConfig with
      antilog := Vector.replicate 64 1, chrom := Vector.replicate 128 1, penta := Vector.replicate 54 1 } ∧
    (1022 : Reading).toNat ≤ (1023 : Reading).toNat := by
  have same : ∀ n i j : Nat, i ≤ j → j < n →
      (List.replicate n (1 : Half)).getD i 0 = (List.replicate n (1 : Half)).getD j 0 := by
    intro n i j hij hj
    rw [List.getD_eq_getElem _ _ (by simpa using Nat.lt_of_le_of_lt hij hj), List.getD_eq_getElem _ _ (by simpa using hj)]
    simp
  refine ⟨⟨?_, by decide, ?_, ?_⟩, by decide⟩
  · intro i j hij hj; simp only [Vector.toList_replicate]; rw [same 64 i j hij hj]
  · intro i j hij hj; simp only [Vector.toList_replicate]; rw [same 128 i j hij hj]
  · intro i j hij hj; simp only [Vector.toList_replicate]; rw [same 54 i j hij hj]

/-- An echo tick with the last cell under the cursor. -/
def atLastCell : State := { State.reset with cursor := 2047, delay := [(2047, 255)] }

theorem witness_TickAdvancesAndDecaysTheOscillators : true = true → atLastCell.cursor.toNat < 2048 := by decide

theorem witness_RetriggeringTickRestartsTheGrains :
    (true = true → (oscillating 0xFFFF 1 Grain.zero Grain.zero).cursor.toNat < 2048) ∧
    ((oscillating 0xFFFF 1 Grain.zero Grain.zero).syncAcc.toNat +
      (oscillating 0xFFFF 1 Grain.zero Grain.zero).syncInc.toNat) % 65536 <
      (oscillating 0xFFFF 1 Grain.zero Grain.zero).syncInc.toNat := by decide

theorem witness_TriangleRisesAndFalls :
    (⟨0x7FFF, 0, 0, 0⟩ : Grain).acc.toNat < 32768 ∧ 32768 ≤ (⟨0x8000, 0, 0, 0⟩ : Grain).acc.toNat := by decide

theorem witness_SumAndSampleStayInRange :
    (defaultConfig.triLsb = .eight ∧ defaultConfig.outShift.val = 9) ∧
    (({ defaultConfig with outShift := 7 } : Config).triLsb = .eight ∧
      7 ≤ ({ defaultConfig with outShift := 7 } : Config).outShift.val) ∧
    (({ defaultConfig with triLsb := .seven, outShift := 8 } : Config).triLsb = .seven ∧
      8 ≤ ({ defaultConfig with triLsb := .seven, outShift := 8 } : Config).outShift.val) := by decide

/-- Grain 1 at 256 with rate 1, grain 2 at 255 with rate 255, and a sync accumulator that just does not carry. -/
def decaying : State := oscillating 0xFFFE 1 ⟨0, 256, 0, 1⟩ ⟨0, 255, 0, 255⟩

theorem witness_DecayFallsExactlyFrom256 :
    (true = true → decaying.cursor.toNat < 2048) ∧ ¬ decaying.carries ∧
    (1 ≤ (decaying.grain .one).dec.toNat ∧ 256 ≤ (decaying.grain .one).amp.toNat) ∧
    ((decaying.grain .two).amp.toNat < 256) ∧
    ((oscillating 0 0 ⟨0, 0x7FFF, 0, 0⟩ Grain.zero).grain .one).dec = 0 := by decide

/-- Three ticks that just do not carry, with a sync increment that is not 0. -/
theorem witness_DecayReachesBelow256 :
    (oscillating 0xFFFC 1 ⟨0, 3, 0, 1⟩ Grain.zero).marked = false ∧
    (oscillating 0xFFFC 1 ⟨0, 3, 0, 1⟩ Grain.zero).cursor.toNat < 2048 ∧
    (oscillating 0xFFFC 1 ⟨0, 3, 0, 1⟩ Grain.zero).syncAcc.toNat +
      [true, false, false].length * (oscillating 0xFFFC 1 ⟨0, 3, 0, 1⟩ Grain.zero).syncInc.toNat < 65536 ∧
    1 ≤ ((oscillating 0xFFFC 1 ⟨0, 3, 0, 1⟩ Grain.zero).grain .one).dec.toNat ∧
    ((oscillating 0xFFFC 1 ⟨0, 3, 0, 1⟩ Grain.zero).grain .one).amp.toNat ≤ [true, false, false].length := by decide

/-- Both grains at the maximum, rate 255 and rate 1, and a sync increment that does not carry in 1387 ticks. -/
def falling : State := oscillating 0 40 ⟨0, 0x7FFF, 0, 255⟩ ⟨0, 0x7FFF, 0, 1⟩

theorem witness_DecayFiguresFromMaximum :
    falling.marked = false ∧ falling.cursor.toNat < 2048 ∧
    falling.syncAcc.toNat + (List.replicate 1387 false).length * falling.syncInc.toNat < 65536 ∧
    ((falling.grain .one).amp = 0x7FFF ∧ (falling.grain .one).dec = 255) ∧
    ((falling.grain .two).amp = 0x7FFF ∧ (falling.grain .two).dec = 1) ∧
    ([false].length = 1 ∧ 2 ≤ [false, true].length) ∧
    ((List.replicate 1386 false).length = 1386 ∧ 1387 ≤ (List.replicate 1387 false).length) := by
  refine ⟨by decide, by decide, ?_, by decide, by decide, by decide, List.length_replicate, ?_⟩
  · rw [List.length_replicate]; decide
  · rw [List.length_replicate]

theorem witness_AmplitudeNeverRisesButByRetrigger :
    (∃ t, exec (.tick true) decaying = .next t) ∧ (∃ t, exec .reset decaying = .next t) := ⟨⟨_, rfl⟩, ⟨_, rfl⟩⟩

/-- Three ticks that never carry, and three that carry at the first alone. -/
theorem witness_PhaseLaw :
    ((oscillating 0 0x4000 Grain.zero Grain.zero).marked = false ∧
      (oscillating 0 0x4000 Grain.zero Grain.zero).cursor.toNat < 2048 ∧
      (oscillating 0 0x4000 Grain.zero Grain.zero).syncAcc.toNat +
        [true, false, true].length * (oscillating 0 0x4000 Grain.zero Grain.zero).syncInc.toNat < 65536) ∧
    ([true, false, true] ≠ [] ∧ (oscillating 0xC000 0x4000 Grain.zero Grain.zero).carries ∧
      (oscillating 0xC000 0x4000 Grain.zero Grain.zero).syncAcc.toNat +
        [true, false, true].length * (oscillating 0xC000 0x4000 Grain.zero Grain.zero).syncInc.toNat < 2 * 65536) := by
  decide

theorem witness_ZeroIncrementsHoldStill :
    (true = true → (oscillating 0xFFFF 1 Grain.zero ⟨9, 0, 0, 0⟩).cursor.toNat < 2048) ∧
    ((oscillating 0xFFFF 1 Grain.zero ⟨9, 0, 0, 0⟩).grain .two).inc = 0 ∧
    (oscillating 0xFFFF 1 Grain.zero ⟨9, 0, 0, 0⟩).carries ∧
    (State.reset.grain .one).inc = 0 ∧ (State.reset.grain .one).acc = 0 ∧ State.reset.syncInc = 0 := by decide

theorem witness_SyncCadence :
    ((oscillating 0x7FFF 0x8000 Grain.zero Grain.zero).syncInc = 0x8000 ∧
      ∃ t, exec (.tick true) (oscillating 0x7FFF 0x8000 Grain.zero Grain.zero) = .next t ∧ t.fault = none) ∧
    (oscillating 0 0xFFFF Grain.zero Grain.zero).syncInc = 0xFFFF := ⟨⟨rfl, ⟨_, rfl, rfl⟩⟩, rfl⟩

theorem witness_TickDrivesTheOutputs : true = true → atLastCell.cursor.toNat < 2048 := by decide

theorem witness_EchoRewritesOneCellAndAdvances :
    atLastCell.delay.wf = true ∧ atLastCell.cursor.toNat < 2048 ∧ (0 : Nat) ≠ atLastCell.cursor.toNat := by decide

theorem witness_TickEmitsItsEvents : true = true → atLastCell.cursor.toNat < 2048 := by decide

theorem witness_TickLeavesMarksAndListsAlone : true = true → atLastCell.cursor.toNat < 2048 := by decide

theorem witness_CursorOutOfRangeFaultsAnEchoTick :
    ({ waiting .ticker 0x80001 with cursor := 2048 } : State).marked = false ∧
    2048 ≤ ({ waiting .ticker 0x80001 with cursor := 2048 } : State).cursor.toNat ∧
    ({ waiting .ticker 0x80001 with cursor := 2048 } : State).agents.nextOp = some (.ticker, 0x80001) := by decide

theorem witness_CursorOutOfRange_power_on :
    Memory.wf [(0, 255)] = true ∧
    ∃ t, stepN 1 (State.powerOn defaultConfig [(0, 255)] (Agents.ofOrder [(.ticker, 0x80001)])) = .next t :=
  ⟨by decide, ⟨_, rfl⟩⟩

theorem witness_RingPeriod :
    atLastCell.marked = false ∧ atLastCell.delay.wf = true ∧ atLastCell.cursor.toNat < 2048 ∧
    (2046 < 2048 ∧ [true, false].count true ≤ (2046 + 2048 - atLastCell.cursor.toNat) % 2048) ∧
    (List.replicate 2047 true).count true = 2047 :=
  ⟨by decide, by decide, by decide, by decide, List.count_replicate_self⟩

theorem witness_DryTickIgnoresTheDelayLine : ∃ t, exec (.tick false) atLastCell = .next t := ⟨_, rfl⟩

theorem witness_ResetZeroesTheRegistersAlone :
    ((0xF0001 : CommandWord).toNat / 65536 = 0xF ∧ (0xF0001 : CommandWord).toNat % 65536 ≠ 0) ∧
    (({ waiting .host 0xF0000 with fault := some (.reservedOpcode 0) } : State).fault = some (.reservedOpcode 0) ∧
      ({ waiting .host 0xF0000 with fault := some (.reservedOpcode 0) } : State).agents.nextOp = some (.host, 0xF0000) ∧
      ({ waiting .host 0xF0000 with fault := some (.reservedOpcode 0) } : State).refusal = none) := by decide

/-- A state in which TICKER's tick is next starts no sync. -/
theorem waiting_ticker_not_startsSync (s : State) (w : CommandWord) (h : s.agents.nextOp = some (.ticker, w)) :
    ¬ s.startsSync := by
  rintro ⟨w', v, hn, -, -⟩
  rw [h] at hn
  cases hn

/-- A silent step, and a run up to MAIN's write of 0x8000: one tick from power-on, the write being next but not performed. -/
theorem witness_SilenceUntilSyncIsWritten :
    ((waiting .ticker 0x80000).silent ∧ ¬ (waiting .ticker 0x80000).startsSync ∧
      ∃ t, step (waiting .ticker 0x80000) = .next t) ∧
    ((∀ m u, m < 1 →
        stepN m (State.powerOn defaultConfig [(0, 255)] (Agents.ofOrder [(.ticker, 0x80001), (.main, 0x18000)])) =
          .next u → ¬ u.startsSync) ∧
      ∃ t, stepN 1 (State.powerOn defaultConfig [(0, 255)] (Agents.ofOrder [(.ticker, 0x80001), (.main, 0x18000)])) =
        .next t ∧ t.startsSync) ∧
    (∃ t, exec .reset atLastCell = .next t) ∧
    (atLastCell.silent ∧ atLastCell.cursor.toNat < 2048) := by
  refine ⟨⟨⟨rfl, rfl, rfl⟩, waiting_ticker_not_startsSync _ 0x80000 rfl, ⟨_, rfl⟩⟩,
    ⟨?_, ⟨_, rfl, 0x18000, 0x8000, rfl, by decide, by decide⟩⟩, ⟨_, rfl⟩, ⟨rfl, rfl, rfl⟩, by decide⟩
  intro m u hm h
  obtain rfl : m = 0 := by omega
  cases h
  exact waiting_ticker_not_startsSync _ 0x80001 rfl

theorem witness_StepRunsTheNextOperation :
    (waiting .host 0xF0000).fault = none ∧ (waiting .host 0xF0000).refusal = none ∧
    (waiting .host 0xF0000).agents.nextOp = some (.host, 0xF0000) ∧ decode 0xF0000 = .ok .reset ∧
    Instr.reset.agent = .host ∧ ∃ t, exec .reset (waiting .host 0xF0000) = .next t :=
  ⟨rfl, rfl, by decide, by decide, rfl, ⟨_, rfl⟩⟩

theorem witness_MarksAreStickyAndExact :
    (({ State.reset with fault := some (.reservedOpcode 0) } : State).marked = true ∧
      (∃ r, ({ State.reset with fault := some (.reservedOpcode 0) } : State).fault = some r) ∧
      ({ State.reset with fault := some (.reservedOpcode 0) } : State).refusal = none) ∧
    (({ State.reset with refusal := some (.wrongAgent .main .reset) } : State).fault = none ∧
      ∃ r, ({ State.reset with refusal := some (.wrongAgent .main .reset) } : State).refusal = some r) ∧
    (∃ t, step (waiting .main 0x00000) = .next t ∧ t.marked = true) ∧
    ((waiting .main 0xF0000).marked = false ∧ (waiting .main 0xF0000).agents.nextOp = some (.main, 0xF0000) ∧
      decode 0xF0000 = .ok .reset ∧ Instr.reset.agent ≠ .main ∧
      ∃ t, step (waiting .main 0xF0000) = .next t ∧ t.marked = true) :=
  ⟨⟨rfl, ⟨_, rfl⟩, rfl⟩, ⟨rfl, ⟨_, rfl⟩⟩, ⟨_, rfl, rfl⟩, ⟨rfl, rfl, by decide, by decide, _, rfl, rfl⟩⟩

theorem witness_WrongAgentIsRefused :
    (waiting .main 0x80000).marked = false ∧ (waiting .main 0x80000).agents.nextOp = some (.main, 0x80000) ∧
    decode 0x80000 = .ok (.tick false) ∧ (Instr.tick false).agent ≠ .main := by decide

theorem witness_NothingIssuedChangesNothing :
    (State.reset.marked = false ∧ State.reset.agents.nextOp = none ∧ State.reset.agents.schedule = []) ∧
    ({ State.reset with agents := ⟨[], [0x80000], [], [.main]⟩ } : State).agents.nextOp = none := by decide

theorem witness_RegistersHaveTheirWriters :
    (∃ t, exec (.wrG1Inc 5) decaying = .next t) ∧ (∀ e, Instr.wrG1Inc 5 ≠ .tick e) ∧ Instr.wrG1Inc 5 ≠ .reset ∧
    (∀ v, Instr.wrG1Inc 5 ≠ .wrSyncInc v) ∧ (∀ v, Instr.wrG1Inc 5 ≠ .wrG1Dec v) ∧
    (∀ v, Instr.wrG1Inc 5 ≠ .wrG2Inc v) ∧ (∀ v, Instr.wrG1Inc 5 ≠ .wrG2Dec v) ∧ (∀ v, Instr.mapLog 5 ≠ .wrG1Inc v) := by
  refine ⟨⟨_, rfl⟩, ?_, ?_, ?_, ?_, ?_, ?_, ?_⟩ <;> simp

theorem witness_StepKeepsTheInvariant :
    ({ waiting .ticker 0x80001 with cursor := 2047, delay := [(2047, 255)] } : State).Inv ∧
    ∃ t, step { waiting .ticker 0x80001 with cursor := 2047, delay := [(2047, 255)] } = .next t :=
  ⟨⟨by decide, by decide, rfl⟩, ⟨_, rfl⟩⟩

theorem witness_PowerOnHasTheInvariant : Memory.wf [(0, 1), (2047, 255)] = true := by decide

theorem witness_LawfulRunsAreNeverMarked :
    Memory.wf [(0, 1), (2047, 255)] = true ∧
    (Agents.ofOrder [(.main, 0x18000), (.ticker, 0x80001), (.host, 0xF0000)]).lawful = true := by decide

theorem witness_EqualDelayContentsAreEqualLists :
    Memory.wf [(2047, 1)] = true ∧ ∀ a, a < 2048 → Memory.get [(2047, 1)] a = Memory.get [(2047, 1)] a :=
  ⟨by decide, fun _ _ => rfl⟩

theorem witness_RunPerformsTheTotalOrder :
    (∀ x ∈ [(Agent.main, Instr.wrSyncInc 1), (Agent.ticker, Instr.tick true)], x.2.agent = x.1) ∧
    State.reset.marked = false ∧ ∃ t, execAll [.wrSyncInc 1, .tick true] State.reset = some t :=
  ⟨by decide, by decide, ⟨_, rfl⟩⟩

theorem witness_TickBetweenWritesSeesATornSet :
    atLastCell.marked = false ∧ (true = true → atLastCell.cursor.toNat < 2048) := by decide

theorem witness_PlacedOperationRunsNext :
    State.reset.marked = false ∧ ∃ t, exec (.tick true) State.reset = .next t ∧ t.marked = false :=
  ⟨by decide, ⟨_, rfl, rfl⟩⟩

theorem witness_PseudoInstructionsExpandToTheirMembers : (1 : Nat) ≤ 1 ∧ (1 : Nat) < 2 := by decide

/-- A state whose agents have nothing left, and one with an echo tick at the last cell to issue. -/
theorem witness_LawfulStepsStayUnmarked :
    (atLastCell.Inv ∧ atLastCell.marked = false ∧ atLastCell.agents.lawful = true) ∧
    (({ atLastCell with agents := Agents.ofOrder [(.ticker, 0x80001)] } : State).Inv ∧
      ({ atLastCell with agents := Agents.ofOrder [(.ticker, 0x80001)] } : State).marked = false ∧
      ({ atLastCell with agents := Agents.ofOrder [(.ticker, 0x80001)] } : State).agents.lawful = true) :=
  ⟨⟨⟨by decide, by decide, rfl⟩, rfl, by decide⟩, ⟨⟨by decide, by decide, rfl⟩, rfl, by decide⟩⟩

end Sys2Proof.Machine
end

section
/-!
PROOF. The decoder (spec/30_encoding.md R81-R85) said once: an equation per opcode, the words that each operation is read
from, and the words that a row of the opcode map selects.
-/

namespace Sys2Proof

/-! ### One equation per opcode (R83, R85) -/

section
variable {w : CommandWord}

theorem decode_wrSyncInc (h : opField w = 0x1#4) : decode w = .ok (.wrSyncInc (imm16Field w)) := by
  simp only [decode, h]

theorem decode_wrG1Inc (h : opField w = 0x2#4) : decode w = .ok (.wrG1Inc (imm16Field w)) := by
  simp only [decode, h]

theorem decode_wrG1Dec (h : opField w = 0x3#4) : decode w = .ok (.wrG1Dec (imm8Field w)) := by
  simp only [decode, h]

theorem decode_wrG2Inc (h : opField w = 0x4#4) : decode w = .ok (.wrG2Inc (imm16Field w)) := by
  simp only [decode, h]

theorem decode_wrG2Dec (h : opField w = 0x5#4) : decode w = .ok (.wrG2Dec (imm8Field w)) := by
  simp only [decode, h]

theorem decode_tick (h : opField w = 0x8#4) : decode w = decodeT w := by
  simp only [decode, h]

theorem decode_mapLog (h : opField w = 0x9#4) : decode w = decodeM .mapLog w := by
  simp only [decode, h]

theorem decode_mapChrom (h : opField w = 0xA#4) : decode w = decodeM .mapChrom w := by
  simp only [decode, h]

theorem decode_mapPenta (h : opField w = 0xB#4) : decode w = decodeM .mapPenta w := by
  simp only [decode, h]

theorem decode_reset (h : opField w = 0xF#4) : decode w = decodeZ w := by
  simp only [decode, h]

/-- The opcodes without a row (R84). -/
theorem decode_of_opcode_without_row (h : opField w ∈ [0x0#4, 0x6#4, 0x7#4, 0xC#4, 0xD#4, 0xE#4]) :
    decode w = .error .reservedOpcode := by
  simp only [List.mem_cons, List.not_mem_nil, or_false] at h
  rcases h with h | h | h | h | h | h <;> simp only [decode, h] <;> rfl

/-! ### Words with a nonzero reserved bit (R84) -/

theorem decodeT_of_reserved (h : reservedT w ≠ 0) : decodeT w = .error .reservedOperand := if_neg h

theorem decodeM_of_reserved (mk : Reading → Instr) (h : reservedM w ≠ 0) : decodeM mk w = .error .reservedOperand :=
  if_neg h

theorem decodeZ_of_reserved (h : imm16Field w ≠ 0) : decodeZ w = .error .reservedOperand := if_neg h

end

/-! ### The words that each operation is read from -/

/-- The word has the operation's opcode, zeros in its reserved bits, and the operand in its field (R81-R83). -/
def Instr.ReadFrom (w : CommandWord) : Instr → Prop
  | .wrSyncInc v => opField w = 0x1#4 ∧ v = imm16Field w
  | .wrG1Inc v => opField w = 0x2#4 ∧ v = imm16Field w
  | .wrG1Dec v => opField w = 0x3#4 ∧ v = imm8Field w
  | .wrG2Inc v => opField w = 0x4#4 ∧ v = imm16Field w
  | .wrG2Dec v => opField w = 0x5#4 ∧ v = imm8Field w
  | .tick e => opField w = 0x8#4 ∧ reservedT w = 0 ∧ e = eField w
  | .mapLog x => opField w = 0x9#4 ∧ reservedM w = 0 ∧ x = xField w
  | .mapChrom x => opField w = 0xA#4 ∧ reservedM w = 0 ∧ x = xField w
  | .mapPenta x => opField w = 0xB#4 ∧ reservedM w = 0 ∧ x = xField w
  | .reset => opField w = 0xF#4 ∧ imm16Field w = 0

theorem readFrom_of_decode {w : CommandWord} {i : Instr} (h : decode w = .ok i) : i.ReadFrom w := by
  unfold decode at h
  split at h
  case h_1 hop => cases h; exact ⟨hop, rfl⟩
  case h_2 hop => cases h; exact ⟨hop, rfl⟩
  case h_3 hop => cases h; exact ⟨hop, rfl⟩
  case h_4 hop => cases h; exact ⟨hop, rfl⟩
  case h_5 hop => cases h; exact ⟨hop, rfl⟩
  case h_6 hop => obtain ⟨hr, rfl⟩ := decodeT_eq_ok.1 h; exact ⟨hop, hr, rfl⟩
  case h_7 hop => obtain ⟨hr, rfl⟩ := decodeM_eq_ok.1 h; exact ⟨hop, hr, rfl⟩
  case h_8 hop => obtain ⟨hr, rfl⟩ := decodeM_eq_ok.1 h; exact ⟨hop, hr, rfl⟩
  case h_9 hop => obtain ⟨hr, rfl⟩ := decodeM_eq_ok.1 h; exact ⟨hop, hr, rfl⟩
  case h_10 hop => obtain ⟨hr, rfl⟩ := decodeZ_eq_ok.1 h; exact ⟨hop, hr⟩
  case h_11 => cases h

theorem decode_of_readFrom {w : CommandWord} {i : Instr} (h : i.ReadFrom w) : decode w = .ok i := by
  cases i with
  | wrSyncInc v => obtain ⟨hop, rfl⟩ := h; exact decode_wrSyncInc hop
  | wrG1Inc v => obtain ⟨hop, rfl⟩ := h; exact decode_wrG1Inc hop
  | wrG1Dec v => obtain ⟨hop, rfl⟩ := h; exact decode_wrG1Dec hop
  | wrG2Inc v => obtain ⟨hop, rfl⟩ := h; exact decode_wrG2Inc hop
  | wrG2Dec v => obtain ⟨hop, rfl⟩ := h; exact decode_wrG2Dec hop
  | tick e => obtain ⟨hop, hr, rfl⟩ := h; exact (decode_tick hop).trans (decodeT_eq_ok.2 ⟨hr, rfl⟩)
  | mapLog x => obtain ⟨hop, hr, rfl⟩ := h; exact (decode_mapLog hop).trans (decodeM_eq_ok.2 ⟨hr, rfl⟩)
  | mapChrom x => obtain ⟨hop, hr, rfl⟩ := h; exact (decode_mapChrom hop).trans (decodeM_eq_ok.2 ⟨hr, rfl⟩)
  | mapPenta x => obtain ⟨hop, hr, rfl⟩ := h; exact (decode_mapPenta hop).trans (decodeM_eq_ok.2 ⟨hr, rfl⟩)
  | reset => obtain ⟨hop, hr⟩ := h; exact (decode_reset hop).trans (decodeZ_eq_ok.2 ⟨hr, rfl⟩)

/-- `decode` answers an operation exactly for the words that it is read from. -/
theorem decode_eq_ok {w : CommandWord} {i : Instr} : decode w = .ok i ↔ i.ReadFrom w :=
  ⟨readFrom_of_decode, decode_of_readFrom⟩

/-! ### Masks: the opcode map's rows (R83) and the ignored bits of a `W8` word (R84) -/

/-- A mask of the bits from `k` up clears the `k` bits below them. -/
theorem highMask_toNat (w : CommandWord) (k : Nat) :
    (w &&& BitVec.allOnes 20 <<< k).toNat = w.toNat / 2 ^ k * 2 ^ k := by
  have hle : w.toNat / 2 ^ k * 2 ^ k ≤ w.toNat := Nat.div_mul_le_self ..
  rw [← BitVec.shiftLeft_ushiftRight, BitVec.toNat_shiftLeft, BitVec.toNat_ushiftRight, Nat.shiftRight_eq_div_pow,
    Nat.shiftLeft_eq, Nat.mod_eq_of_lt (Nat.lt_of_le_of_lt hle w.isLt)]

theorem opcodeWord_toNat (op : BitVec 4) : (op ++ 0#16 : CommandWord).toNat = op.toNat * 65536 := by
  have h : (op ++ 0#16 : BitVec (4 + 16)).toNat = op.toNat <<< 16 ||| (0#16).toNat := BitVec.toNat_append op 0#16
  exact h.trans (by simp [Nat.shiftLeft_eq])

/-- Row of a `W16` or `W8` word: the opcode alone. -/
theorem selects_W {w : CommandWord} {op : BitVec 4} : w &&& 0xF0000 = op ++ 0#16 ↔ opField w = op := by
  rw [← BitVec.toNat_inj, ← BitVec.toNat_inj, opcodeWord_toNat, opField_toNat,
    show (0xF0000 : CommandWord) = BitVec.allOnes 20 <<< 16 by decide, highMask_toNat]
  omega

/-- Row of a `T` word: the opcode and zeros in w[15:1]. -/
theorem selects_T {w : CommandWord} {op : BitVec 4} :
    w &&& 0xFFFFE = op ++ 0#16 ↔ opField w = op ∧ reservedT w = 0 := by
  rw [← BitVec.toNat_inj, ← BitVec.toNat_inj, opcodeWord_toNat, opField_toNat, reservedT_eq_zero,
    show (0xFFFFE : CommandWord) = BitVec.allOnes 20 <<< 1 by decide, highMask_toNat]
  omega

/-- Row of an `M` word: the opcode and zeros in w[15:10]. -/
theorem selects_M {w : CommandWord} {op : BitVec 4} :
    w &&& 0xFFC00 = op ++ 0#16 ↔ opField w = op ∧ reservedM w = 0 := by
  rw [← BitVec.toNat_inj, ← BitVec.toNat_inj, opcodeWord_toNat, opField_toNat, reservedM_eq_zero,
    show (0xFFC00 : CommandWord) = BitVec.allOnes 20 <<< 10 by decide, highMask_toNat]
  omega

/-- Row of a `Z` word: the opcode and zeros in w[15:0]. -/
theorem selects_Z {w : CommandWord} {op : BitVec 4} :
    w &&& 0xFFFFF = op ++ 0#16 ↔ opField w = op ∧ imm16Field w = 0 := by
  rw [← BitVec.toNat_inj, ← BitVec.toNat_inj, opcodeWord_toNat, opField_toNat, imm16Field_eq_zero,
    show (0xFFFFF : CommandWord) = BitVec.allOnes 20 <<< 0 by decide, highMask_toNat]
  omega

theorem opField_ignoreW8 (w : CommandWord) : opField (w &&& 0xF00FF) = opField w := by
  rw [opField, BitVec.extractLsb'_and, show BitVec.extractLsb' 16 4 (0xF00FF : CommandWord) = BitVec.allOnes 4 by decide,
    BitVec.and_allOnes, opField]

theorem imm8Field_ignoreW8 (w : CommandWord) : imm8Field (w &&& 0xF00FF) = imm8Field w := by
  rw [imm8Field, BitVec.extractLsb'_and, show BitVec.extractLsb' 0 8 (0xF00FF : CommandWord) = BitVec.allOnes 8 by decide,
    BitVec.and_allOnes, imm8Field]

/-- The opcode read off the word's number. -/
theorem opField_of_div {w : CommandWord} {n : Nat} (h : w.toNat / 65536 = n) : opField w = BitVec.ofNat 4 n := by
  rw [← h, ← opField_toNat, BitVec.ofNat_toNat, BitVec.setWidth_eq]

/-- An operation that a word is read from has a row of the opcode map, and the word selects it. -/
theorem selects_row_of_readFrom {w : CommandWord} {i : Instr} (h : i.ReadFrom w) :
    ∃ r ∈ opRows, w &&& r.mask = r.pattern := by
  cases i with
  | wrSyncInc v =>
    obtain ⟨hop, -⟩ := h
    exact ⟨⟨"WR_SYNC_INC", 0x10000, 0xF0000, .main⟩, by decide, selects_W.2 hop⟩
  | wrG1Inc v =>
    obtain ⟨hop, -⟩ := h
    exact ⟨⟨"WR_G1_INC", 0x20000, 0xF0000, .main⟩, by decide, selects_W.2 hop⟩
  | wrG1Dec v =>
    obtain ⟨hop, -⟩ := h
    exact ⟨⟨"WR_G1_DEC", 0x30000, 0xF0000, .main⟩, by decide, selects_W.2 hop⟩
  | wrG2Inc v =>
    obtain ⟨hop, -⟩ := h
    exact ⟨⟨"WR_G2_INC", 0x40000, 0xF0000, .main⟩, by decide, selects_W.2 hop⟩
  | wrG2Dec v =>
    obtain ⟨hop, -⟩ := h
    exact ⟨⟨"WR_G2_DEC", 0x50000, 0xF0000, .main⟩, by decide, selects_W.2 hop⟩
  | tick e =>
    obtain ⟨hop, hr, -⟩ := h
    exact ⟨⟨"TICK", 0x80000, 0xFFFFE, .ticker⟩, by decide, selects_T.2 ⟨hop, hr⟩⟩
  | mapLog x =>
    obtain ⟨hop, hr, -⟩ := h
    exact ⟨⟨"MAP_LOG", 0x90000, 0xFFC00, .main⟩, by decide, selects_M.2 ⟨hop, hr⟩⟩
  | mapChrom x =>
    obtain ⟨hop, hr, -⟩ := h
    exact ⟨⟨"MAP_CHROM", 0xA0000, 0xFFC00, .main⟩, by decide, selects_M.2 ⟨hop, hr⟩⟩
  | mapPenta x =>
    obtain ⟨hop, hr, -⟩ := h
    exact ⟨⟨"MAP_PENTA", 0xB0000, 0xFFC00, .main⟩, by decide, selects_M.2 ⟨hop, hr⟩⟩
  | reset => exact ⟨⟨"RESET", 0xF0000, 0xFFFFF, .host⟩, by decide, selects_Z.2 h⟩

/-- A row that a word selects is the row of an operation that the word is read from. -/
theorem readFrom_of_selects_row {w : CommandWord} :
    ∀ r ∈ opRows, w &&& r.mask = r.pattern →
      ∃ i : Instr, i.ReadFrom w ∧ i.mnemonic = r.mnemonic ∧ i.agent = r.agent := by
  simp only [opRows, List.forall_mem_cons]
  refine ⟨?syncInc, ?g1Inc, ?g1Dec, ?g2Inc, ?g2Dec, ?tick, ?log, ?chrom, ?penta, ?reset, nofun⟩ <;> intro h
  case syncInc => exact ⟨.wrSyncInc (imm16Field w), ⟨selects_W.1 h, rfl⟩, rfl, rfl⟩
  case g1Inc => exact ⟨.wrG1Inc (imm16Field w), ⟨selects_W.1 h, rfl⟩, rfl, rfl⟩
  case g1Dec => exact ⟨.wrG1Dec (imm8Field w), ⟨selects_W.1 h, rfl⟩, rfl, rfl⟩
  case g2Inc => exact ⟨.wrG2Inc (imm16Field w), ⟨selects_W.1 h, rfl⟩, rfl, rfl⟩
  case g2Dec => exact ⟨.wrG2Dec (imm8Field w), ⟨selects_W.1 h, rfl⟩, rfl, rfl⟩
  case tick =>
    obtain ⟨hop, hr⟩ := (selects_T (op := 0x8#4)).1 h
    exact ⟨.tick (eField w), ⟨hop, hr, rfl⟩, rfl, rfl⟩
  case log =>
    obtain ⟨hop, hr⟩ := (selects_M (op := 0x9#4)).1 h
    exact ⟨.mapLog (xField w), ⟨hop, hr, rfl⟩, rfl, rfl⟩
  case chrom =>
    obtain ⟨hop, hr⟩ := (selects_M (op := 0xA#4)).1 h
    exact ⟨.mapChrom (xField w), ⟨hop, hr, rfl⟩, rfl, rfl⟩
  case penta =>
    obtain ⟨hop, hr⟩ := (selects_M (op := 0xB#4)).1 h
    exact ⟨.mapPenta (xField w), ⟨hop, hr, rfl⟩, rfl, rfl⟩
  case reset => exact ⟨.reset, selects_Z.1 h, rfl, rfl⟩

end Sys2Proof
end

section
/-!
PROOF. The statements about the encoding (spec/30_encoding.md R82-R84, R88): what a word decodes to, and what a step does
with a reserved word and with another agent's operation.
-/

namespace Sys2Proof.Machine

/-! ### A next operation without a meaning -/

section
variable {s : State} {a : Agent} {w : CommandWord}

/-- A word that does not decode raises its fault and changes nothing else (R84, R202). -/
theorem step_of_decode_error {d : DecodeFault} (hm : s.marked = false) (hn : s.agents.nextOp = some (a, w))
    (hd : decode w = .error d) : step s = .next { s with fault := some (decodeFault d w) } := by
  simp only [step_of_nextOp hm hn, stepOp, hd, raiseFault]

/-- An operation of another agent is refused and changes nothing else (R88, R202). -/
theorem step_of_wrongAgent {i : Instr} (hm : s.marked = false) (hn : s.agents.nextOp = some (a, w))
    (hd : decode w = .ok i) (ha : i.agent ≠ a) : step s = .next { s with refusal := some (.wrongAgent a i) } := by
  simp only [step_of_nextOp hm hn, stepOp, hd, if_neg ha, refuse]

end

/-! ### The kinds of reserved encodings (R84), by the word's number -/

section
variable {w : CommandWord}

theorem decode_of_reservedOpcode (h : w.toNat / 65536 ∈ [0x0, 0x6, 0x7, 0xC, 0xD, 0xE]) :
    decode w = .error .reservedOpcode := by
  apply decode_of_opcode_without_row
  rw [opField_of_div rfl]
  exact List.mem_map_of_mem (f := BitVec.ofNat 4) h

theorem decode_of_reservedT (hop : w.toNat / 65536 = 0x8) (hr : w.toNat % 65536 / 2 ≠ 0) :
    decode w = .error .reservedOperand := by
  rw [decode_tick (opField_of_div hop)]
  exact decodeT_of_reserved (mt (reservedT_eq_zero w).1 hr)

theorem decode_of_reservedM (hop : w.toNat / 65536 ∈ [0x9, 0xA, 0xB]) (hr : w.toNat % 65536 / 1024 ≠ 0) :
    decode w = .error .reservedOperand := by
  have hM := fun mk => decodeM_of_reserved mk (mt (reservedM_eq_zero w).1 hr)
  simp only [List.mem_cons, List.not_mem_nil, or_false] at hop
  rcases hop with h | h | h
  · exact (decode_mapLog (opField_of_div h)).trans (hM _)
  · exact (decode_mapChrom (opField_of_div h)).trans (hM _)
  · exact (decode_mapPenta (opField_of_div h)).trans (hM _)

theorem decode_of_reservedZ (hop : w.toNat / 65536 = 0xF) (hr : w.toNat % 65536 ≠ 0) :
    decode w = .error .reservedOperand := by
  rw [decode_reset (opField_of_div hop)]
  exact decodeZ_of_reserved (mt (imm16Field_eq_zero w).1 hr)

/-- The ignored bits of a `W8` word: the word decodes, and to the same operation with them cleared. -/
theorem decode_of_W8 (hop : w.toNat / 65536 ∈ [0x3, 0x5]) :
    decode w = decode (w &&& 0xF00FF) ∧ ∃ i, decode w = .ok i := by
  simp only [List.mem_cons, List.not_mem_nil, or_false] at hop
  rcases hop with h | h
  · have hw := decode_wrG1Dec (opField_of_div h)
    have hmask := decode_wrG1Dec ((opField_ignoreW8 w).trans (opField_of_div h))
    exact ⟨by rw [hw, hmask, imm8Field_ignoreW8], _, hw⟩
  · have hw := decode_wrG2Dec (opField_of_div h)
    have hmask := decode_wrG2Dec ((opField_ignoreW8 w).trans (opField_of_div h))
    exact ⟨by rw [hw, hmask, imm8Field_ignoreW8], _, hw⟩

end

/-! ### The obligations -/

/-- Settles O3: a row's mask and match say the opcode and the zero reserved bits of its operation's words. -/
theorem decodeFollowsTheOpcodeMap : Obligations.DecodeFollowsTheOpcodeMap := by
  unfold Obligations.DecodeFollowsTheOpcodeMap
  intro w
  constructor
  · intro r hr hsel
    obtain ⟨i, hi, hmn, hag⟩ := readFrom_of_selects_row r hr hsel
    exact ⟨i, decode_eq_ok.2 hi, hmn, hag⟩
  · intro hno
    cases hd : decode w with
    | error d => exact ⟨d, rfl⟩
    | ok i =>
      obtain ⟨r, hr, hsel⟩ := selects_row_of_readFrom (decode_eq_ok.1 hd)
      exact absurd hsel (hno r hr)

/-- Settles O4, by the word that each operation is read from and its fields as numbers. -/
theorem operandsAreTheirFields : Obligations.OperandsAreTheirFields := by
  unfold Obligations.OperandsAreTheirFields
  intro w i hd
  have hi := decode_eq_ok.1 hd
  cases i with
  | wrSyncInc v => obtain ⟨-, rfl⟩ := hi; exact imm16Field_toNat w
  | wrG1Inc v => obtain ⟨-, rfl⟩ := hi; exact imm16Field_toNat w
  | wrG1Dec v => obtain ⟨-, rfl⟩ := hi; exact imm8Field_toNat w
  | wrG2Inc v => obtain ⟨-, rfl⟩ := hi; exact imm16Field_toNat w
  | wrG2Dec v => obtain ⟨-, rfl⟩ := hi; exact imm8Field_toNat w
  | tick e => obtain ⟨-, -, rfl⟩ := hi; exact eField_iff w
  | mapLog x => obtain ⟨-, -, rfl⟩ := hi; exact xField_toNat w
  | mapChrom x => obtain ⟨-, -, rfl⟩ := hi; exact xField_toNat w
  | mapPenta x => obtain ⟨-, -, rfl⟩ := hi; exact xField_toNat w
  | reset =>
    obtain ⟨hop, himm⟩ := hi
    exact congrArg BitVec.toNat (show w = 0xF0000 by rw [← word_of_fields w, hop, himm]; decide)

/-- Settles O5, kind by kind, and by the step of a word that does not decode. -/
theorem reservedEncodingsRaiseTheirFault : Obligations.ReservedEncodingsRaiseTheirFault := by
  unfold Obligations.ReservedEncodingsRaiseTheirFault
  exact ⟨fun w =>
      ⟨decode_of_reservedOpcode, decode_of_reservedT, decode_of_reservedM, decode_of_reservedZ, decode_of_W8⟩,
    fun s a w hm hn => ⟨step_of_decode_error hm hn, step_of_decode_error hm hn⟩⟩

/-- Settles O37, by R83's agent column and the step of another agent's operation. -/
theorem wrongAgentIsRefused : Obligations.WrongAgentIsRefused := by
  unfold Obligations.WrongAgentIsRefused
  constructor
  · intro i
    cases i <;> rfl
  · intro s a w i
    exact step_of_wrongAgent

end Sys2Proof.Machine
end

section
/-!
PROOF. The mapper's indexes as R101-R103 write them, within the tables of every instance (spec/40_frequency_mapper.md R108).
-/

namespace Sys2Proof.Machine

/-- `CHROM_DIV` is a power of two, so R102's division is R108's shift. -/
theorem chromIndex_eq_shiftRight (x : Reading) : chromIndex x = (1023 - x.toNat) >>> 3 :=
  (Nat.shiftRight_eq_div_pow (1023 - x.toNat) 3).symm

theorem pentaIndex_eq_div (x : Reading) : pentaIndex x = (1023 - x.toNat) / 19 := rfl

/-- An index below a table's declared length is one of the list of its entries. -/
theorem index_lt_length_toList {n i : Nat} (t : Vector Half n) (h : i < n) : i < t.toList.length :=
  h.trans_eq t.length_toList.symm

/-- Settles O12: the bounds on the indexes, carried over to the tables, whose lengths their types fix. -/
theorem mapIndexesStayInTheTables : Obligations.MapIndexesStayInTheTables := by
  unfold Obligations.MapIndexesStayInTheTables
  intro c x
  exact ⟨antilogIndex_eq x, index_lt_length_toList c.antilog (antilogIndex_lt x),
    chromIndex_eq_shiftRight x, index_lt_length_toList c.chrom (chromIndex_lt x),
    pentaIndex_eq_div x, index_lt_length_toList c.penta (pentaIndex_lt x),
    c.antilog.length_toList, c.chrom.length_toList, c.penta.length_toList⟩

end Sys2Proof.Machine
end

section
/-!
PROOF. TICK as one state function (spec/41_grain_oscillator.md R120, spec/42_echo_delay_line.md R150-R154): the state that a
tick with a legal delay access answers, one lemma per field, and the state that a list of such ticks ends in.
-/

namespace Sys2Proof.Machine

/-! ### S1-S4 on the spec's naturals -/

/-- S2 toggles the status line exactly on a retrigger (R122). -/
theorem oscillatorStages_status (i : Instr) (s : State) :
    (oscillatorStages i s).status = if s.retriggers then !s.status else s.status := by
  rw [oscillatorStages_eq]
  unfold retrigger
  cases s.retriggers <;> rfl

/-- The grain after S3 where S1's add carries. -/
theorem oscillatorStages_grain_of_carries (i : Instr) {s : State} (h : s.carries) (k : GrainId) :
    (oscillatorStages i s).grain k = (s.grain k).restart.advance := by
  rw [oscillatorStages_grain, if_pos (s.retriggers_iff.2 h)]

/-- The grain after S3 where S1's add does not carry. -/
theorem oscillatorStages_grain_of_not_carries (i : Instr) {s : State} (h : ¬ s.carries) (k : GrainId) :
    (oscillatorStages i s).grain k = (s.grain k).advance := by
  rw [oscillatorStages_grain, if_neg (mt s.retriggers_iff.1 h)]

theorem oscillatorStages_inc (i : Instr) (s : State) (k : GrainId) :
    ((oscillatorStages i s).grain k).inc = (s.grain k).inc := by
  rw [oscillatorStages_grain]
  cases s.retriggers <;> rfl

theorem oscillatorStages_dec (i : Instr) (s : State) (k : GrainId) :
    ((oscillatorStages i s).grain k).dec = (s.grain k).dec := by
  rw [oscillatorStages_grain]
  cases s.retriggers <;> rfl

theorem oscillatorStages_acc_toNat (i : Instr) (s : State) (k : GrainId) :
    ((oscillatorStages i s).grain k).acc.toNat = s.accAfter k := by
  by_cases h : s.carries
  · rw [oscillatorStages_grain_of_carries i h, State.accAfter, if_pos h]
    exact BitVec.toNat_add 0 (s.grain k).inc
  · rw [oscillatorStages_grain_of_not_carries i h, State.accAfter, if_neg h]
    exact BitVec.toNat_add (s.grain k).acc (s.grain k).inc

theorem oscillatorStages_amp_toNat (i : Instr) (s : State) (k : GrainId) :
    ((oscillatorStages i s).grain k).amp.toNat = s.ampHeard k := by
  by_cases h : s.carries
  · rw [oscillatorStages_grain_of_carries i h, State.ampHeard, if_pos h]
    rfl
  · rw [oscillatorStages_grain_of_not_carries i h, State.ampHeard, if_neg h]
    rfl

theorem Grain.weight_eq (g : Grain) : g.weight = g.amp.toNat / 256 := Nat.shiftRight_eq_div_pow _ 8

/-- m[k] is the spec's triangle of the accumulator (R124). -/
theorem Grain.magnitude_eq_triangleOf (t : TriLsb) (g : Grain) :
    (g.magnitude t).toNat = triangleOf t.bit g.acc.toNat := by
  have hbit15 : 32768 ≤ g.acc.toNat ↔ g.acc.toNat / 32768 % 2 = 1 := by
    have := g.acc.isLt
    omega
  rw [Grain.magnitude_toNat, triangleOf, if_congr hbit15 rfl rfl]

theorem Grain.product_eq (t : TriLsb) (g : Grain) :
    g.product t = triangleOf t.bit g.acc.toNat * (g.amp.toNat / 256) := by
  rw [Grain.product, Grain.magnitude_eq_triangleOf, Grain.weight_eq]

/-- The machine's sum of S4 is the spec's. -/
theorem grainSum_oscillatorStages (i : Instr) (s : State) : grainSum (oscillatorStages i s) = s.sumOf := by
  obtain ⟨hcfg, -⟩ := oscillatorStages_frame i s
  rw [grainSum, ← State.grain_one, ← State.grain_two, Grain.product_eq, Grain.product_eq, hcfg]
  simp only [oscillatorStages_acc_toNat, oscillatorStages_amp_toNat]
  rfl

/-- The machine's sample of S6 is the spec's. -/
theorem scaleSample_oscillatorStages (i : Instr) (s : State) :
    (scaleSample s.cfg.outShift (grainSum (oscillatorStages i s))).toNat = s.sampleOf := by
  rw [grainSum_oscillatorStages, scaleSample_toNat]
  rfl

/-! ### The state a legal tick answers -/

/-- The byte of S7 of a tick (R150, R151). -/
def tickByte (e : Bool) (s : State) : Byte :=
  if e then echoMean (tickSample (.tick e) s) (s.delay.get s.cursor.toNat) else tickSample (.tick e) s

/-- The state after S1-S7 of a tick: with echo, the cell at the cursor rewritten and the cursor advanced. -/
def afterEcho (e : Bool) (s : State) : State :=
  { afterDecay (.tick e) s with
    delay := if e then s.delay.put s.cursor.toNat (tickByte e s) else s.delay
    cursor := if e then advanceCursor s.cursor else s.cursor }

/-- The state that a tick with a legal delay access answers. -/
def tickNext (e : Bool) (s : State) : State := outputStage (.tick e) e (tickByte e s) (afterEcho e s)

/-- Without echo S7 leaves the delay line alone (R151). -/
theorem afterEcho_false (s : State) : afterEcho false s = afterDecay (.tick false) s := by
  have hdelay : (afterDecay (.tick false) s).delay = s.delay := by
    obtain ⟨-, -, -, h, -⟩ := oscillatorStages_frame (.tick false) s
    exact h
  have hcursor : (afterDecay (.tick false) s).cursor = s.cursor := by
    obtain ⟨-, -, -, -, h, -⟩ := oscillatorStages_frame (.tick false) s
    exact h
  simp only [afterEcho, Bool.false_eq_true, if_false, ← hdelay, ← hcursor]

/-- A tick whose delay access is legal completes. -/
theorem exec_tick_of_legal {e : Bool} {s : State} (h : e = true → s.cursor.toNat < 2048) :
    exec (.tick e) s = .next (tickNext e s) := by
  cases e with
  | false =>
    change execTick false s = _
    rw [execTick_false, ← afterEcho_false]
    rfl
  | true => exact execTick_true (h rfl)

section
variable (e : Bool) (s : State)

@[simp] theorem tickNext_outReg : (tickNext e s).outReg = tickByte e s := by
  obtain ⟨h, -⟩ := outputStage_fields (.tick e) e (tickByte e s) (afterEcho e s)
  exact h

@[simp] theorem tickNext_status : (tickNext e s).status = e := by
  obtain ⟨-, h, -⟩ := outputStage_fields (.tick e) e (tickByte e s) (afterEcho e s)
  exact h

@[simp] theorem tickNext_syncAcc : (tickNext e s).syncAcc = s.syncAcc + s.syncInc := by
  obtain ⟨-, -, -, h, -⟩ := outputStage_fields (.tick e) e (tickByte e s) (afterEcho e s)
  obtain ⟨-, -, hosc, -⟩ := oscillatorStages_frame (.tick e) s
  exact h.trans hosc

@[simp] theorem tickNext_syncInc : (tickNext e s).syncInc = s.syncInc := by
  obtain ⟨-, -, -, -, h, -⟩ := outputStage_fields (.tick e) e (tickByte e s) (afterEcho e s)
  obtain ⟨-, hosc, -⟩ := oscillatorStages_frame (.tick e) s
  exact h.trans hosc

theorem tickNext_grain (k : GrainId) :
    (tickNext e s).grain k = ((oscillatorStages (.tick e) s).grain k).decayed := by
  obtain ⟨-, -, -, -, -, h1, h2, -⟩ := outputStage_fields (.tick e) e (tickByte e s) (afterEcho e s)
  cases k with
  | one => exact h1
  | two => exact h2

@[simp] theorem tickNext_cursor : (tickNext e s).cursor = if e then advanceCursor s.cursor else s.cursor := by
  obtain ⟨-, -, -, -, -, -, -, -, h, -⟩ := outputStage_fields (.tick e) e (tickByte e s) (afterEcho e s)
  exact h

@[simp] theorem tickNext_fault : (tickNext e s).fault = s.fault := by
  obtain ⟨-, -, -, -, -, -, -, -, -, h, -⟩ := outputStage_fields (.tick e) e (tickByte e s) (afterEcho e s)
  obtain ⟨-, -, -, -, -, -, hosc, -⟩ := oscillatorStages_frame (.tick e) s
  exact h.trans hosc

@[simp] theorem tickNext_refusal : (tickNext e s).refusal = s.refusal := by
  obtain ⟨-, -, -, -, -, -, -, -, -, -, h, -⟩ := outputStage_fields (.tick e) e (tickByte e s) (afterEcho e s)
  obtain ⟨-, -, -, -, -, -, -, hosc, -⟩ := oscillatorStages_frame (.tick e) s
  exact h.trans hosc

/-- A completing tick sets no mark. -/
theorem tickNext_marked : (tickNext e s).marked = s.marked := by
  rw [State.marked, tickNext_fault, tickNext_refusal, State.marked]

/-- A grain's registers after a tick, as the rules' formulas of S1-S3 and S5 (R121-R123, R125). -/
theorem tickNext_acc_toNat (k : GrainId) : ((tickNext e s).grain k).acc.toNat = s.accAfter k := by
  rw [tickNext_grain, Grain.decayed_acc, oscillatorStages_acc_toNat]

theorem tickNext_amp_toNat (k : GrainId) : ((tickNext e s).grain k).amp.toNat = s.ampAfter k := by
  rw [tickNext_grain, Grain.decayed_amp, oscillatorStages_amp_toNat, oscillatorStages_dec, State.ampAfter]

theorem tickNext_inc (k : GrainId) : ((tickNext e s).grain k).inc = (s.grain k).inc := by
  rw [tickNext_grain, Grain.decayed_inc, oscillatorStages_inc]

end

/-- The cursor stays a cell (R152). -/
theorem tickNext_cursor_lt (e : Bool) {s : State} (h : s.cursor.toNat < 2048) :
    (tickNext e s).cursor.toNat < 2048 := by
  rw [tickNext_cursor]
  cases e with
  | false => exact h
  | true =>
    rw [if_pos rfl, advanceCursor_toNat h]
    exact Nat.mod_lt _ (by decide)

/-! ### The events of a tick -/

theorem statusEvents_append (l l' : List Event) : statusEvents (l ++ l') = statusEvents l ++ statusEvents l' :=
  List.filterMap_append

theorem outEvents_append (l l' : List Event) : outEvents (l ++ l') = outEvents l ++ outEvents l' :=
  List.filterMap_append

theorem resultEvents_append (l l' : List Event) : resultEvents (l ++ l') = resultEvents l ++ resultEvents l' :=
  List.filterMap_append

/-- The events of S8, in the order that the parameters fix (log 12). -/
def outputEvents (i : Instr) (e : Bool) (y : Byte) : S8Order → List Event
  | .outFirst => [⟨i, .out y⟩, ⟨i, .status e⟩]
  | .statusFirst => [⟨i, .status e⟩, ⟨i, .out y⟩]

/-- The event of S2 (R122): the status line toggled, on a retrigger. -/
def retriggerEvents (i : Instr) (s : State) : List Event :=
  if s.retriggers then [⟨i, .status (!s.status)⟩] else []

section
variable (i : Instr) (e : Bool) (y : Byte) (o : S8Order) (s : State)

theorem statusEvents_outputEvents : statusEvents (outputEvents i e y o) = [e] := by cases o <;> rfl

theorem outEvents_outputEvents : outEvents (outputEvents i e y o) = [y] := by cases o <;> rfl

theorem resultEvents_outputEvents : resultEvents (outputEvents i e y o) = [] := by cases o <;> rfl

theorem op_of_mem_outputEvents : ∀ ev ∈ outputEvents i e y o, ev.op = i := by cases o <;> simp [outputEvents]

theorem statusEvents_retriggerEvents :
    statusEvents (retriggerEvents i s) = if s.carries then [!s.status] else [] := by
  rw [← if_congr s.retriggers_iff rfl rfl, retriggerEvents]
  cases s.retriggers <;> rfl

theorem outEvents_retriggerEvents : outEvents (retriggerEvents i s) = [] := by
  rw [retriggerEvents]
  cases s.retriggers <;> rfl

theorem resultEvents_retriggerEvents : resultEvents (retriggerEvents i s) = [] := by
  rw [retriggerEvents]
  cases s.retriggers <;> rfl

theorem op_of_mem_retriggerEvents : ∀ ev ∈ retriggerEvents i s, ev.op = i := by
  rw [retriggerEvents]
  cases s.retriggers <;> simp

end

theorem tickNext_events (e : Bool) (s : State) :
    (tickNext e s).events =
      s.events ++ (retriggerEvents (.tick e) s ++ outputEvents (.tick e) e (tickByte e s) s.cfg.s8Order) := by
  have hbefore : (afterEcho e s).events = s.events ++ retriggerEvents (.tick e) s := oscillatorStages_events (.tick e) s
  have hcfg : (afterEcho e s).cfg = s.cfg := by
    obtain ⟨h, -⟩ := oscillatorStages_frame (.tick e) s
    exact h
  rw [tickNext, outputStage_events, hbefore, hcfg, List.append_assoc]
  rfl

/-! ### A list of ticks -/

/-- The state after a list of ticks, each with a legal delay access. -/
def ticksNext (es : List Bool) (s : State) : State := es.foldl (fun s e => tickNext e s) s

theorem ticksNext_cons (e : Bool) (es : List Bool) (s : State) :
    ticksNext (e :: es) s = ticksNext es (tickNext e s) := rfl

/-- From an unmarked state whose cursor is a cell, any ticks complete. -/
theorem tickAll_eq_some {s : State} (hm : s.marked = false) (hc : s.cursor.toNat < 2048) (es : List Bool) :
    tickAll es s = some (ticksNext es s) := by
  induction es generalizing s with
  | nil => rfl
  | cons e es ih =>
    have hm' : (tickNext e s).marked = false := (tickNext_marked e s).trans hm
    exact execAll_cons_eq_some.2 ⟨tickNext e s, exec_tick_of_legal fun _ => hc, hm', ih hm' (tickNext_cursor_lt e hc)⟩

end Sys2Proof.Machine
end

section
/-!
PROOF. The statements about the grain oscillator (spec/41_grain_oscillator.md): the retrigger, the range of the sum and the
sample, the phase law, and the events of a tick.
-/

namespace Sys2Proof.Machine

/-! ### The retrigger condition (R128, R130) -/

/-- A sum of two 16-bit values wraps below its second summand exactly when it leaves 16 bits. -/
theorem sum_wraps_iff (a i : Half) : (a.toNat + i.toNat) % 65536 < i.toNat ↔ 65536 ≤ a.toNat + i.toNat := by
  rw [← wrapped_add, wrapped, decide_eq_true_eq, BitVec.toNat_add]

/-- The grain after S3 of a retriggering tick: phase one increment in, amplitude at its maximum (R122, R123). -/
theorem accAfter_of_carries {s : State} (h : s.carries) (k : GrainId) : s.accAfter k = (s.grain k).inc.toNat := by
  rw [State.accAfter, if_pos h, Nat.zero_add]
  exact Nat.mod_eq_of_lt (s.grain k).inc.isLt

theorem ampHeard_of_carries {s : State} (h : s.carries) (k : GrainId) : s.ampHeard k = 0x7FFF := if_pos h

theorem ampAfter_of_carries {s : State} (h : s.carries) (k : GrainId) :
    s.ampAfter k = 0x7FFF - 127 * (s.grain k).dec.toNat := by
  rw [State.ampAfter, ampHeard_of_carries h]

/-- Settles O15, by the retrigger of S1 and the toggle of S2. -/
theorem tickTogglesTheLineExactlyOnCarry : Obligations.TickTogglesTheLineExactlyOnCarry := by
  unfold Obligations.TickTogglesTheLineExactlyOnCarry
  intro i s
  refine ⟨?_, sum_wraps_iff s.syncAcc s.syncInc⟩
  rw [oscillatorStages_status, if_congr s.retriggers_iff rfl rfl]

/-- Settles O14: the wrap condition is the carry, and the registers are the formulas of S3-S5 on a carry. -/
theorem retriggeringTickRestartsTheGrains : Obligations.RetriggeringTickRestartsTheGrains := by
  unfold Obligations.RetriggeringTickRestartsTheGrains
  intro e s hlegal hwraps
  have hcarries : s.carries := (sum_wraps_iff _ _).1 hwraps
  refine ⟨tickNext e s, exec_tick_of_legal hlegal, fun k => ⟨?_, ?_, ?_⟩⟩
  · rw [← BitVec.toNat_inj, tickNext_acc_toNat, accAfter_of_carries hcarries]
  · rw [tickNext_amp_toNat, ampAfter_of_carries hcarries]
  · rw [Grain.weight_eq, oscillatorStages_amp_toNat, ampHeard_of_carries hcarries]

/-! ### The range of the sum and the sample (R132, R133) -/

theorem accAfter_lt (s : State) (k : GrainId) : s.accAfter k < 65536 := Nat.mod_lt _ (by decide)

/-- The weight of S4 is at most 127: the amplitude has 15 bits. -/
theorem ampHeard_div_le (s : State) (k : GrainId) : s.ampHeard k / 256 ≤ 127 := by
  have hamp := (s.grain k).amp.isLt
  unfold State.ampHeard
  split <;> omega

theorem triangleOf_le (lsb a : Nat) : triangleOf lsb a ≤ 255 := by
  unfold triangleOf
  split <;> omega

/-- With `TRI_LSB` 8 the fold leaves the seven bits below bit 15. -/
theorem triangleOf_eight_le {a : Nat} (h : a < 65536) : triangleOf 8 a ≤ 127 := by
  unfold triangleOf
  split <;> omega

/-- Both products are bounded by the bound on the triangle times 127. -/
theorem sumOf_le_of_triangle_le {s : State} {m : Nat}
    (h : ∀ k, triangleOf s.cfg.triLsb.bit (s.accAfter k) ≤ m) : s.sumOf ≤ m * 127 + m * 127 :=
  Nat.add_le_add (Nat.mul_le_mul (h .one) (ampHeard_div_le s .one)) (Nat.mul_le_mul (h .two) (ampHeard_div_le s .two))

theorem sumOf_le (s : State) : s.sumOf ≤ 64770 := sumOf_le_of_triangle_le fun _ => triangleOf_le _ _

theorem sumOf_le_of_eight {s : State} (h : s.cfg.triLsb = .eight) : s.sumOf ≤ 32258 := by
  refine sumOf_le_of_triangle_le (m := 127) fun k => ?_
  rw [h]
  exact triangleOf_eight_le (accAfter_lt s k)

/-- A sum below 2^(b + 8) needs no clamp after a shift of b or more. -/
theorem div_pow_le_255 {sum b n : Nat} (hsum : sum < 2 ^ b * 256) (hb : b ≤ n) : sum / 2 ^ n ≤ 255 :=
  calc sum / 2 ^ n ≤ sum / 2 ^ b := Nat.div_le_div_left (Nat.pow_le_pow_right (by decide) hb) (Nat.two_pow_pos b)
    _ ≤ 255 := Nat.le_of_lt_succ (Nat.div_lt_of_lt_mul hsum)

/-- Settles O17: the bounds on the triangle and the weight give those on the sum, and those the ones on its shift. -/
theorem sumAndSampleStayInRange : Obligations.SumAndSampleStayInRange := by
  unfold Obligations.SumAndSampleStayInRange
  intro i s
  refine ⟨grainSum_oscillatorStages i s, sumOf_le s, sumOf_le_of_eight, scaleSample_oscillatorStages i s,
    Nat.min_le_right _ _, fun ht hshift => ?eight, fun _ hshift => ?seven, fun ht hshift => ?default⟩
  case eight => exact div_pow_le_255 (Nat.lt_of_le_of_lt (sumOf_le_of_eight ht) (by decide)) hshift
  case seven => exact div_pow_le_255 (Nat.lt_of_le_of_lt (sumOf_le s) (by decide)) hshift
  case default =>
    have hsum := sumOf_le_of_eight ht
    rw [State.sampleOf, hshift]
    omega

/-! ### The phase law (R129) -/

theorem tickNext_syncAcc_toNat (e : Bool) (s : State) :
    (tickNext e s).syncAcc.toNat = (s.syncAcc.toNat + s.syncInc.toNat) % 65536 := by
  rw [tickNext_syncAcc, BitVec.toNat_add]

theorem ticksNext_syncAcc_toNat (es : List Bool) (s : State) :
    (ticksNext es s).syncAcc.toNat = (s.syncAcc.toNat + es.length * s.syncInc.toNat) % 65536 := by
  induction es generalizing s with
  | nil =>
    rw [List.length_nil, Nat.zero_mul]
    exact (Nat.mod_eq_of_lt s.syncAcc.isLt).symm
  | cons e es ih =>
    rw [ticksNext_cons, ih, tickNext_syncAcc_toNat, tickNext_syncInc, List.length_cons, Nat.succ_mul]
    omega

/-- While no carry comes, a grain's accumulator advances by its increment at each tick. -/
theorem ticksNext_acc_toNat_of_no_carry (es : List Bool) (s : State) (k : GrainId)
    (h : s.syncAcc.toNat + es.length * s.syncInc.toNat < 65536) :
    ((ticksNext es s).grain k).acc.toNat = ((s.grain k).acc.toNat + es.length * (s.grain k).inc.toNat) % 65536 := by
  induction es generalizing s with
  | nil =>
    rw [List.length_nil, Nat.zero_mul]
    exact (Nat.mod_eq_of_lt (s.grain k).acc.isLt).symm
  | cons e es ih =>
    rw [List.length_cons, Nat.succ_mul] at h
    have hno : ¬ s.carries := by
      unfold State.carries
      omega
    have hrest : (tickNext e s).syncAcc.toNat + es.length * (tickNext e s).syncInc.toNat < 65536 := by
      rw [tickNext_syncAcc_toNat, tickNext_syncInc]
      omega
    rw [ticksNext_cons, ih _ hrest, tickNext_acc_toNat, tickNext_inc, State.accAfter, if_neg hno, List.length_cons,
      Nat.succ_mul]
    omega

/-- Counted from a retriggering tick, inclusive, a grain's accumulator is that many increments in. -/
theorem ticksNext_acc_toNat_of_first_carries (e : Bool) (es : List Bool) {s : State} (k : GrainId) (hcarries : s.carries)
    (h : s.syncAcc.toNat + (es.length + 1) * s.syncInc.toNat < 2 * 65536) :
    ((ticksNext (e :: es) s).grain k).acc.toNat = (es.length + 1) * (s.grain k).inc.toNat % 65536 := by
  rw [Nat.succ_mul] at h
  have hrest : (tickNext e s).syncAcc.toNat + es.length * (tickNext e s).syncInc.toNat < 65536 := by
    unfold State.carries at hcarries
    rw [tickNext_syncAcc_toNat, tickNext_syncInc]
    omega
  rw [ticksNext_cons, ticksNext_acc_toNat_of_no_carry es _ k hrest, tickNext_acc_toNat, tickNext_inc,
    accAfter_of_carries hcarries, Nat.succ_mul, Nat.add_comm]

/-- Settles O22, by induction on the ticks: the sync accumulator, and a grain's while no carry comes and from the one that
does. -/
theorem phaseLaw : Obligations.PhaseLaw := by
  unfold Obligations.PhaseLaw
  intro es s hm hc
  refine ⟨ticksNext es s, tickAll_eq_some hm hc es, ticksNext_syncAcc_toNat es s,
    fun h k => ticksNext_acc_toNat_of_no_carry es s k h, fun hne hcarries h k => ?_⟩
  cases es with
  | nil => exact absurd rfl hne
  | cons e es => exact ticksNext_acc_toNat_of_first_carries e es k hcarries h

/-! ### The events (R127, R153) -/

/-- Settles O27: the new events are S2's, where S1 carries, and then S8's two, in either order. -/
theorem tickEmitsItsEvents : Obligations.TickEmitsItsEvents := by
  unfold Obligations.TickEmitsItsEvents
  intro e s hlegal
  refine ⟨tickNext e s, _, exec_tick_of_legal hlegal, tickNext_events e s, ?status, ?out, ?result, tickNext_status e s,
    fun ev hev => ?op⟩
  case status =>
    rw [statusEvents_append, statusEvents_retriggerEvents, statusEvents_outputEvents]
    split <;> rfl
  case out => rw [outEvents_append, outEvents_retriggerEvents, outEvents_outputEvents, tickNext_outReg, List.nil_append]
  case result => rw [resultEvents_append, resultEvents_retriggerEvents, resultEvents_outputEvents, List.nil_append]
  case op =>
    rcases List.mem_append.1 hev with h | h
    · exact op_of_mem_retriggerEvents _ s ev h
    · exact op_of_mem_outputEvents _ _ _ _ ev h

end Sys2Proof.Machine
end

section
/-!
PROOF. The statements about the echo delay line (spec/42_echo_delay_line.md R156, R157, R159): what a tick does to the delay
RAM and the cursor, what an echo tick with the cursor out of range does, and that no run from power-on reaches such a cursor.
-/

namespace Sys2Proof.Machine

/-! ### The byte of S7 and the delay line after a tick (R150-R152) -/

theorem tickSample_toNat (i : Instr) (s : State) : (tickSample i s).toNat = s.sampleOf := by
  obtain ⟨hcfg, -⟩ := oscillatorStages_frame i s
  rw [tickSample, hcfg, scaleSample_oscillatorStages]

/-- The machine's byte of S7 is the spec's. -/
theorem tickByte_toNat (e : Bool) (s : State) : (tickByte e s).toNat = s.byteOf e := by
  cases e with
  | false => exact tickSample_toNat (.tick false) s
  | true =>
    calc (tickByte true s).toNat
        = ((tickSample (.tick true) s).toNat + (s.delay.get s.cursor.toNat).toNat) / 2 := echoMean_toNat _ _
      _ = s.byteOf true := by rw [tickSample_toNat, State.byteOf, if_pos rfl]

/-- S7 writes the outgoing byte to the cursor's cell with echo, and nothing without it. -/
@[simp] theorem tickNext_delay (e : Bool) (s : State) :
    (tickNext e s).delay = if e then s.delay.put s.cursor.toNat (tickByte e s) else s.delay := by
  obtain ⟨-, -, -, -, -, -, -, h, -⟩ := outputStage_fields (.tick e) e (tickByte e s) (afterEcho e s)
  exact h

/-! ### A tick whose delay access is out of range (R159) -/

theorem exec_tick_out_of_range {s : State} (h : 2048 ≤ s.cursor.toNat) :
    exec (.tick true) s = .next { s with fault := some (.cursorOutOfRange (.tick true)) } :=
  execTick_true_raises h

/-- What a tick can do: complete, its access being legal if it makes one, or raise the cursor's fault. -/
theorem exec_tick_cases {e : Bool} {s t : State} (h : exec (.tick e) s = .next t) :
    ((e = true → s.cursor.toNat < 2048) ∧ t = tickNext e s) ∨
    (e = true ∧ 2048 ≤ s.cursor.toNat ∧ t = { s with fault := some (.cursorOutOfRange (.tick e)) }) := by
  by_cases hlegal : e = true → s.cursor.toNat < 2048
  · rw [exec_tick_of_legal hlegal] at h
    cases h
    exact .inl ⟨hlegal, rfl⟩
  · obtain ⟨rfl, hc⟩ := Classical.not_imp.1 hlegal
    have hrange : 2048 ≤ s.cursor.toNat := Nat.le_of_not_lt hc
    rw [exec_tick_out_of_range hrange] at h
    cases h
    exact .inr ⟨rfl, hrange, rfl⟩

/-- An operation that raises a mark is not issued: the step answers just the marked state (R202). -/
theorem step_of_exec_marked {s t : State} {a : Agent} {w : CommandWord} {i : Instr} (hm : s.marked = false)
    (hn : s.agents.nextOp = some (a, w)) (hd : decode w = .ok i) (ha : i.agent = a) (hx : exec i s = .next t)
    (ht : t.marked = true) : step s = .next t := by
  simp only [step_of_nextOp hm hn, stepOp, hd, if_pos ha, hx, State.retire_of_marked a ht]

/-! ### The cursor along a run -/

/-- A step changes only the agents' lists, sets a mark of decoding or of the agent check, or performs an operation: what
these four keep, it keeps. -/
theorem step_keeps_of_exec_keeps {P : State → Prop} (hagents : ∀ s p, P s → P { s with agents := p })
    (hfault : ∀ s d w, P s → P { s with fault := some (decodeFault d w) })
    (hrefusal : ∀ s r, P s → P { s with refusal := some r })
    (hexec : ∀ i s t, P s → exec i s = .next t → P t) : ∀ s t, P s → step s = .next t → P t := by
  intro s t hs h
  obtain ⟨-, -, ⟨-, rfl⟩ | ⟨a, w, -, ⟨d, -, rfl⟩ | ⟨i, -, ⟨-, rfl⟩ | ⟨-, u, hu, rfl⟩⟩⟩⟩ := step_cases h
  · exact hagents s _ hs
  · exact hfault s d w hs
  · exact hrefusal s _ hs
  · have hPu : P u := hexec i s u hs hu
    unfold State.retire
    split
    · exact hPu
    · exact hagents u _ hPu

/-- No operation takes the cursor out of range: only a tick and RESET write it. -/
theorem exec_cursor_lt (i : Instr) (s t : State) (hc : s.cursor.toNat < 2048) (h : exec i s = .next t) :
    t.cursor.toNat < 2048 := by
  cases i with
  | tick e =>
    obtain ⟨-, rfl⟩ | ⟨-, -, rfl⟩ := exec_tick_cases h
    · exact tickNext_cursor_lt e hc
    · exact hc
  | reset => cases h; exact (by decide : (0 : Half).toNat < 2048)
  | wrSyncInc | wrG1Inc | wrG1Dec | wrG2Inc | wrG2Dec | mapLog | mapChrom | mapPenta => cases h; exact hc

theorem step_cursor_lt : ∀ s t : State, s.cursor.toNat < 2048 → step s = .next t → t.cursor.toNat < 2048 :=
  step_keeps_of_exec_keeps (fun _ _ h => h) (fun _ _ _ h => h) (fun _ _ h => h) exec_cursor_lt

/-! ### The obligations -/

/-- Settles O26: the fields of the completed tick, and the delay RAM's reads after its one write. -/
theorem echoRewritesOneCellAndAdvances : Obligations.EchoRewritesOneCellAndAdvances := by
  unfold Obligations.EchoRewritesOneCellAndAdvances
  intro s hwf
  constructor
  · exact ⟨tickNext false s, exec_tick_of_legal nofun, tickNext_delay false s, tickNext_cursor false s⟩
  · intro hc
    have hdelay : (tickNext true s).delay = s.delay.put s.cursor.toNat (tickByte true s) := tickNext_delay true s
    have hcursor : (tickNext true s).cursor = advanceCursor s.cursor := tickNext_cursor true s
    refine ⟨tickNext true s, exec_tick_of_legal fun _ => hc, ?cell, ?mean, ?others, ?cursor⟩
    case cell => rw [hdelay, tickNext_outReg, Memory.get_put_same hwf]
    case mean =>
      rw [tickNext_outReg]
      exact tickByte_toNat true s
    case others =>
      intro a ha
      rw [hdelay, Memory.get_put_other hwf _ ha]
    case cursor => rw [hcursor, advanceCursor_toNat hc]

/-- Settles O29: an echo tick out of range raises in exec and its step keeps the mark, a dry tick completes, and the bound
on the cursor holds at power-on and is kept by every step. -/
theorem cursorOutOfRangeFaultsAnEchoTick : Obligations.CursorOutOfRangeFaultsAnEchoTick := by
  unfold Obligations.CursorOutOfRangeFaultsAnEchoTick
  constructor
  · intro s hm hc
    constructor
    · intro hn
      exact step_of_exec_marked (i := .tick true) hm hn (by decide) rfl (exec_tick_out_of_range hc) rfl
    · exact ⟨tickNext false s, exec_tick_of_legal nofun, (tickNext_marked false s).trans hm, tickNext_cursor false s,
        tickNext_delay false s⟩
  · intro c d p n t _ hrun
    have hpowerOn : (State.powerOn c d p).cursor.toNat < 2048 := by rw [State.powerOn_cursor]; decide
    exact stepN_keeps step_cursor_lt n _ t hpowerOn hrun

end Sys2Proof.Machine
end

section
/-!
PROOF. The statement about the marks (spec/60_exceptions.md R202): a marked state takes no step, and what sets a mark changes
nothing else.
-/

namespace Sys2Proof.Machine

section
variable {s : State}

/-! ### Marked states stop -/

theorem step_of_fault {r : Fault} (hf : s.fault = some r) : step s = .fault r := by
  simp only [step, hf]

theorem step_of_refusal {r : Refusal} (hf : s.fault = none) (hr : s.refusal = some r) : step s = .refused r := by
  simp only [step, hf, hr]

theorem marked_eq_false_of_step {t : State} (h : step s = .next t) : s.marked = false := by
  obtain ⟨hf, hr, -⟩ := step_cases h
  exact State.marked_eq_false.2 ⟨hf, hr⟩

/-! ### What sets a mark changes nothing else -/

/-- Only a tick raises in an unmarked state, and it answers the state before it with the mark (R159). -/
theorem exec_marked_frame {t : State} {i : Instr} (hm : s.marked = false) (h : exec i s = .next t)
    (ht : t.marked = true) : t = { s with fault := t.fault, refusal := t.refusal } := by
  cases i with
  | tick e =>
    obtain ⟨-, rfl⟩ | ⟨-, -, rfl⟩ := exec_tick_cases h
    · rw [tickNext_marked, hm] at ht
      cases ht
    · rfl
  | wrSyncInc | wrG1Inc | wrG1Dec | wrG2Inc | wrG2Dec | mapLog | mapChrom | mapPenta | reset =>
    cases h
    exact absurd (hm.symm.trans ht) Bool.false_ne_true

/-- Retiring an operation neither sets nor clears a mark. -/
@[simp] theorem State.retire_marked (a : Agent) (s : State) : (s.retire a).marked = s.marked := by
  unfold State.retire
  split <;> rfl

theorem step_marked_frame {t : State} (h : step s = .next t) (ht : t.marked = true) :
    t = { s with fault := t.fault, refusal := t.refusal } := by
  have hm : s.marked = false := marked_eq_false_of_step h
  obtain ⟨-, -, ⟨-, rfl⟩ | ⟨a, w, -, ⟨d, -, rfl⟩ | ⟨i, -, ⟨-, rfl⟩ | ⟨-, u, hu, rfl⟩⟩⟩⟩ := step_cases h
  case inl => exact absurd (hm.symm.trans ht) Bool.false_ne_true
  case inr.inl => rfl
  case inr.inr.inl => rfl
  case inr.inr.inr =>
    rw [State.retire_marked] at ht
    rw [State.retire_of_marked a ht]
    exact exec_marked_frame hm hu ht

end

/-! ### The obligation -/

/-- Settles O36: the stops of a marked state, the refusal of another agent's operation, and the frame of a step that marks,
kind by kind of step. -/
theorem marksAreStickyAndExact : Obligations.MarksAreStickyAndExact := by
  unfold Obligations.MarksAreStickyAndExact
  refine ⟨?noStep, ?faulted, ?refused, ?wrongAgent, ?frame⟩
  case noStep =>
    intro s t hm h
    exact absurd ((marked_eq_false_of_step h).symm.trans hm) Bool.false_ne_true
  case faulted => exact fun s r hf _ => step_of_fault hf
  case refused => exact fun s r => step_of_refusal
  case wrongAgent =>
    intro s t a w i hm hn hd ha h
    rw [step_of_wrongAgent hm hn hd ha] at h
    cases h
    rfl
  case frame => exact fun s t => step_marked_frame

end Sys2Proof.Machine
end

section
/-!
PROOF. The statements about RESET and power-on (spec/70_reset_and_hazards.md R230, R231): the registers at their R30 values,
and what each of the two keeps.
-/

namespace Sys2Proof.Machine

/-! ### RESET (R231) -/

/-- The state with every register of the block at its R30 value, and the rest of it kept. -/
def State.zeroed (s : State) : State :=
  { s with syncAcc := 0, syncInc := 0, g1 := Grain.zero, g2 := Grain.zero, cursor := 0, outReg := 0, status := false }

/-- Zeroed registers stay as they are when zeroed again: two RESETs in a row equal one. -/
@[simp] theorem State.zeroed_zeroed (s : State) : s.zeroed.zeroed = s.zeroed := rfl

theorem exec_reset (s : State) : exec .reset s = .next s.zeroed := rfl

/-- RESET's word is its opcode with every operand bit 0 (R81, R83). -/
theorem decode_resetWord : decode 0xF0000 = .ok .reset := decode_eq_ok.2 ⟨by decide, by decide⟩

/-- A faulted state takes no step, whichever operation is next (R202). -/
theorem step_ne_next_of_fault {s : State} {r : Fault} (hf : s.fault = some r) (t : State) : step s ≠ .next t := by
  rw [step_of_fault hf]
  exact nofun

/-- Settles O32: the word and its reserved bits by the decoder's lemmas, the effect as the zeroed registers, and the stop of
a faulted state. -/
theorem resetZeroesTheRegistersAlone : Obligations.ResetZeroesTheRegistersAlone := by
  unfold Obligations.ResetZeroesTheRegistersAlone
  refine ⟨decode_resetWord, rfl, fun _ => decode_of_reservedZ, ?effect, ?faulted⟩
  case effect =>
    intro s
    have hagain : exec .reset s.zeroed = .next s.zeroed := by rw [exec_reset, State.zeroed_zeroed]
    exact ⟨s.zeroed, exec_reset s, rfl, hagain⟩
  case faulted =>
    intro s r hf _
    exact ⟨step_ne_next_of_fault hf, fun _ => step_of_fault hf⟩

/-! ### Power-on (R230) -/

theorem State.powerOn_grain (c : Config) (d : Memory) (p : Agents) (k : GrainId) :
    (State.powerOn c d p).grain k = Grain.zero := by cases k <;> rfl

/-- Settles O33, register by register: both grains start as the zero grain, and the delay RAM is the given one. -/
theorem powerOnState : Obligations.PowerOnState := by
  unfold Obligations.PowerOnState
  intro c d p s
  refine ⟨State.powerOn_syncAcc c d p, State.powerOn_syncInc c d p, State.powerOn_cursor c d p,
    State.powerOn_outReg c d p, State.powerOn_status c d p, ?grains, ?delay, State.powerOn_fault c d p,
    State.powerOn_refusal c d p⟩
  case grains =>
    intro k
    rw [State.powerOn_grain c d p k]
    exact ⟨rfl, rfl, rfl, rfl⟩
  case delay =>
    intro a
    exact congrArg (Memory.get · a) (State.powerOn_delay c d p)

end Sys2Proof.Machine
end

section
/-!
PROOF. The encoder (spec/30_encoding.md R81-R83, R86) against the decoder: the word of every operation is read back as it,
and a word that decodes is its operation's word, but for the ignored bits of a `W8` word.
-/

namespace Sys2Proof.Machine

/-! ### The word of an operation -/

/-- The encoder puts an operation's opcode and operand where the decoder looks for them. -/
theorem readFrom_encode (i : Instr) : i.ReadFrom (encode i) := by
  cases i with
  | wrSyncInc v => exact ⟨opField_append _ v, (imm16Field_append _ v).symm⟩
  | wrG1Inc v => exact ⟨opField_append _ v, (imm16Field_append _ v).symm⟩
  | wrG1Dec v => exact ⟨opField_append _ (0#8 ++ v), (imm8Field_append _ 0#8 v).symm⟩
  | wrG2Inc v => exact ⟨opField_append _ v, (imm16Field_append _ v).symm⟩
  | wrG2Dec v => exact ⟨opField_append _ (0#8 ++ v), (imm8Field_append _ 0#8 v).symm⟩
  | tick e =>
    exact ⟨opField_append _ (0#15 ++ BitVec.ofBool e), reservedT_append _ 0#15 (BitVec.ofBool e),
      (eField_append _ 0#15 e).symm⟩
  | mapLog x => exact ⟨opField_append _ (0#6 ++ x), reservedM_append _ 0#6 x, (xField_append _ 0#6 x).symm⟩
  | mapChrom x => exact ⟨opField_append _ (0#6 ++ x), reservedM_append _ 0#6 x, (xField_append _ 0#6 x).symm⟩
  | mapPenta x => exact ⟨opField_append _ (0#6 ++ x), reservedM_append _ 0#6 x, (xField_append _ 0#6 x).symm⟩
  | reset => exact ⟨opField_append _ 0#16, imm16Field_append _ 0#16⟩

theorem decode_encode (i : Instr) : decode (encode i) = .ok i := decode_of_readFrom (readFrom_encode i)

/-! ### The operand bits of each format, put together from their fields (R81) -/

section
variable {w : CommandWord}

theorem imm16Field_of_reservedT (h : reservedT w = 0) : imm16Field w = 0#15 ++ BitVec.ofBool (eField w) := by
  have he : w.extractLsb' 0 1 = BitVec.ofBool (eField w) := by
    apply BitVec.eq_of_getLsbD_eq
    intro i hi
    obtain rfl : i = 0 := by omega
    simp [eField]
  have hsplit : imm16Field w = reservedT w ++ w.extractLsb' 0 1 :=
    (BitVec.extractLsb'_append_extractLsb'_eq_extractLsb' (start₂ := 1) (start₁ := 0) (len₂ := 15) (len₁ := 1) rfl).symm
  rw [hsplit, h, he]
  rfl

theorem imm16Field_of_reservedM (h : reservedM w = 0) : imm16Field w = 0#6 ++ xField w := by
  have hsplit : imm16Field w = reservedM w ++ xField w :=
    (BitVec.extractLsb'_append_extractLsb'_eq_extractLsb' (start₂ := 10) (start₁ := 0) (len₂ := 6) (len₁ := 10) rfl).symm
  rw [hsplit, h]
  rfl

/-- Of a `W8` word's operand bits the mask keeps imm8 alone. -/
theorem imm16Field_ignoreW8 (w : CommandWord) : imm16Field (w &&& 0xF00FF) = 0#8 ++ imm8Field w := by
  have hw : imm16Field w = w.extractLsb' 8 8 ++ imm8Field w :=
    (BitVec.extractLsb'_append_extractLsb'_eq_extractLsb' (start₂ := 8) (start₁ := 0) (len₂ := 8) (len₁ := 8) rfl).symm
  have hmask : BitVec.extractLsb' 0 16 (0xF00FF : CommandWord) = 0#8 ++ BitVec.allOnes 8 := by decide
  rw [imm16Field, BitVec.extractLsb'_and, ← imm16Field, hw, hmask, BitVec.and_append, BitVec.and_zero, BitVec.and_allOnes]

/-- The word of an opcode and operand bits is the word that has them as its fields. -/
theorem append_eq_of_fields {op : BitVec 4} {v : Half} (hop : opField w = op) (hv : imm16Field w = v) :
    (op ++ v : CommandWord) = w := by
  rw [← hop, ← hv, word_of_fields]

/-- The same, of a word of any format but `W8`. -/
theorem append_eq_keptWord {op : BitVec 4} {v : Half} (hop : opField w = op) (hv : imm16Field w = v)
    (hW8 : ¬ (op = 0x3 ∨ op = 0x5)) :
    (op ++ v : CommandWord) = if opField w = 0x3 ∨ opField w = 0x5 then w &&& 0xF00FF else w := by
  rw [hop, if_neg hW8, append_eq_of_fields hop hv]

/-- The same, of a `W8` word, whose ignored bits the encoder writes 0. -/
theorem append_eq_maskedWord {op : BitVec 4} (hop : opField w = op) (hW8 : op = 0x3 ∨ op = 0x5) :
    (op ++ (0#8 ++ imm8Field w) : CommandWord) = if opField w = 0x3 ∨ opField w = 0x5 then w &&& 0xF00FF else w := by
  rw [hop, if_pos hW8]
  exact append_eq_of_fields ((opField_ignoreW8 w).trans hop) (imm16Field_ignoreW8 w)

end

/-- Settles O1: the encoder's word has each field where the decoder reads it. -/
theorem decodeOfEncodeIsTheOperation : Obligations.DecodeOfEncodeIsTheOperation := by
  unfold Obligations.DecodeOfEncodeIsTheOperation
  exact decode_encode

/-- Settles O2: the word that an operation is read from, put together from its fields, those of a `W8` word after the mask. -/
theorem encodeOfDecodeIsTheWordLessIgnoredBits : Obligations.EncodeOfDecodeIsTheWordLessIgnoredBits := by
  unfold Obligations.EncodeOfDecodeIsTheWordLessIgnoredBits
  intro w i hd
  have hi := decode_eq_ok.1 hd
  cases i with
  | wrSyncInc v => obtain ⟨hop, rfl⟩ := hi; exact append_eq_keptWord hop rfl (by decide)
  | wrG1Inc v => obtain ⟨hop, rfl⟩ := hi; exact append_eq_keptWord hop rfl (by decide)
  | wrG1Dec v => obtain ⟨hop, rfl⟩ := hi; exact append_eq_maskedWord hop (.inl rfl)
  | wrG2Inc v => obtain ⟨hop, rfl⟩ := hi; exact append_eq_keptWord hop rfl (by decide)
  | wrG2Dec v => obtain ⟨hop, rfl⟩ := hi; exact append_eq_maskedWord hop (.inr rfl)
  | tick e => obtain ⟨hop, hr, rfl⟩ := hi; exact append_eq_keptWord hop (imm16Field_of_reservedT hr) (by decide)
  | mapLog x => obtain ⟨hop, hr, rfl⟩ := hi; exact append_eq_keptWord hop (imm16Field_of_reservedM hr) (by decide)
  | mapChrom x => obtain ⟨hop, hr, rfl⟩ := hi; exact append_eq_keptWord hop (imm16Field_of_reservedM hr) (by decide)
  | mapPenta x => obtain ⟨hop, hr, rfl⟩ := hi; exact append_eq_keptWord hop (imm16Field_of_reservedM hr) (by decide)
  | reset => obtain ⟨hop, hz⟩ := hi; exact append_eq_keptWord hop hz (by decide)

/-- Settles O6: a word of each row has its operation's fields, and the last two a reserved operand and no row. -/
theorem writtenOutWordsDecode : Obligations.WrittenOutWordsDecode := by
  unfold Obligations.WrittenOutWordsDecode
  decide
end Sys2Proof.Machine
end

section
/-!
PROOF. Every operation's answer and frame (spec/10_state.md R30, R35; spec/60_exceptions.md R200): that it answers a next
state, what it leaves unchanged, and that it neither reads nor writes the agents' lists.
-/

namespace Sys2Proof.Machine

/-! ### An answer for every operation (R200) -/

theorem exec_answers (i : Instr) (s : State) : ∃ t, exec i s = .next t := by
  cases i with
  | tick e =>
    by_cases hlegal : e = true → s.cursor.toNat < 2048
    · exact ⟨tickNext e s, exec_tick_of_legal hlegal⟩
    · obtain ⟨rfl, hc⟩ := Classical.not_imp.1 hlegal
      exact ⟨_, exec_tick_out_of_range (Nat.le_of_not_lt hc)⟩
  | wrSyncInc | wrG1Inc | wrG1Dec | wrG2Inc | wrG2Dec | mapLog | mapChrom | mapPenta | reset => exact ⟨_, rfl⟩

theorem exec_tick_false (s : State) : exec (.tick false) s = .next (tickNext false s) := exec_tick_of_legal nofun

/-! ### The delay line and the agents' lists apart from the rest of a tick -/

/-- The state with another delay line and other lists: what S1-S6 and S8 neither read nor write. -/
def State.withLine (s : State) (m : Memory) (c : Half) (p : Agents) : State :=
  { s with delay := m, cursor := c, agents := p }

section
variable (s : State) (m : Memory) (c : Half) (p : Agents)

theorem oscillatorStages_withLine (i : Instr) :
    oscillatorStages i (s.withLine m c p) = (oscillatorStages i s).withLine m c p := by
  have hr : (s.withLine m c p).retriggers = s.retriggers := rfl
  rw [oscillatorStages_eq, oscillatorStages_eq, hr]
  unfold retrigger
  cases s.retriggers <;> rfl

theorem afterDecay_withLine (i : Instr) : afterDecay i (s.withLine m c p) = (afterDecay i s).withLine m c p :=
  congrArg (State.mapGrains Grain.decayed) (oscillatorStages_withLine s m c p i)

theorem outputStage_withLine (i : Instr) (e : Bool) (y : Byte) :
    outputStage i e y (s.withLine m c p) = (outputStage i e y s).withLine m c p := by
  have hcfg : (s.withLine m c p).cfg = s.cfg := rfl
  unfold outputStage
  rw [hcfg]
  cases s.cfg.s8Order <;> rfl

end

/-- The byte of a tick is the spec's, so it depends only on what that formula reads. -/
theorem tickByte_congr {e : Bool} {s s' : State} (h : s.byteOf e = s'.byteOf e) : tickByte e s = tickByte e s' := by
  rw [← BitVec.toNat_inj, tickByte_toNat, tickByte_toNat, h]

section
variable (e : Bool) (s : State)

@[simp] theorem tickNext_cfg : (tickNext e s).cfg = s.cfg := by
  obtain ⟨-, -, h, -⟩ := outputStage_fields (.tick e) e (tickByte e s) (afterEcho e s)
  obtain ⟨hosc, -⟩ := oscillatorStages_frame (.tick e) s
  exact h.trans hosc

@[simp] theorem tickNext_agents : (tickNext e s).agents = s.agents := by
  obtain ⟨-, -, -, -, -, -, -, -, -, -, -, h⟩ := outputStage_fields (.tick e) e (tickByte e s) (afterEcho e s)
  obtain ⟨-, -, -, -, -, -, -, -, hosc⟩ := oscillatorStages_frame (.tick e) s
  exact h.trans hosc

theorem tickNext_dec (k : GrainId) : ((tickNext e s).grain k).dec = (s.grain k).dec := by
  rw [tickNext_grain, Grain.decayed_dec, oscillatorStages_dec]

/-- A tick is S1-S6 and S8, which leave the line alone, and S7's delay line. -/
theorem tickNext_eq_withLine :
    tickNext e s = (outputStage (.tick e) e (tickByte e s) (afterDecay (.tick e) s)).withLine
      (if e then s.delay.put s.cursor.toNat (tickByte e s) else s.delay)
      (if e then advanceCursor s.cursor else s.cursor) s.agents := by
  rw [← outputStage_withLine, tickNext]
  congr 1
  obtain ⟨-, -, -, -, -, -, -, -, hagents⟩ := oscillatorStages_frame (.tick e) s
  simp only [afterEcho, State.withLine, afterDecay, State.mapGrains, hagents]

/-- A tick does not read the agents' lists. -/
theorem tickNext_withAgents (p : Agents) : tickNext e { s with agents := p } = { tickNext e s with agents := p } := by
  have hbyte : tickByte e { s with agents := p } = tickByte e s := tickByte_congr rfl
  have hdecay := afterDecay_withLine s s.delay s.cursor p (.tick e)
  rw [tickNext_eq_withLine, tickNext_eq_withLine e s, hbyte]
  change (outputStage _ e _ (afterDecay _ (s.withLine s.delay s.cursor p))).withLine _ _ _ = _
  rw [hdecay, outputStage_withLine]
  rfl

/-- A tick without echo does not read the delay line either (R151). -/
theorem tickNext_false_withDelayLine (m : Memory) (c : Half) :
    tickNext false { s with delay := m, cursor := c } = { tickNext false s with delay := m, cursor := c } := by
  have hbyte : tickByte false { s with delay := m, cursor := c } = tickByte false s := tickByte_congr rfl
  have hdecay := afterDecay_withLine s m c s.agents (.tick false)
  rw [tickNext_eq_withLine, tickNext_eq_withLine false s, hbyte]
  change (outputStage _ false _ (afterDecay _ (s.withLine m c s.agents))).withLine _ _ _ = _
  rw [hdecay, outputStage_withLine]
  rfl

end

/-- No operation reads the agents' lists. -/
theorem exec_withAgents {i : Instr} {s t : State} (p : Agents) (h : exec i s = .next t) :
    exec i { s with agents := p } = .next { t with agents := p } := by
  cases i with
  | tick e =>
    obtain ⟨hlegal, rfl⟩ | ⟨rfl, hrange, rfl⟩ := exec_tick_cases h
    · rw [← tickNext_withAgents]
      exact exec_tick_of_legal hlegal
    · exact exec_tick_out_of_range hrange
  | wrSyncInc | wrG1Inc | wrG1Dec | wrG2Inc | wrG2Dec | mapLog | mapChrom | mapPenta | reset => cases h; rfl

/-! ### The obligations -/

/-- Settles O39, by the tick's two answers and the one of every other operation. -/
theorem everyOperationAnswersANextState : Obligations.EveryOperationAnswersANextState := by
  unfold Obligations.EveryOperationAnswersANextState
  exact exec_answers

/-- Settles O7: each write is one record update. -/
theorem parameterWritesChangeTheirRegisterAlone : Obligations.ParameterWritesChangeTheirRegisterAlone := by
  unfold Obligations.ParameterWritesChangeTheirRegisterAlone
  intro s v d
  exact ⟨rfl, rfl, rfl, rfl, rfl⟩

/-- The power-on state with a sync increment of 1. -/
def syncIncOne : State := { State.reset with syncInc := 1 }

/-- Two ticks of a nonzero increment move the sync accumulator twice. -/
theorem tick_not_idempotent :
    ∃ s t u : State, exec (.tick false) s = .next t ∧ exec (.tick false) t = .next u ∧ t.syncAcc ≠ u.syncAcc := by
  refine ⟨syncIncOne, _, _, exec_tick_false _, exec_tick_false _, ?_⟩
  simp only [tickNext_syncAcc, tickNext_syncInc]
  decide

/-- Settles O8: the written register holds the operand already the second time, a map only emits, and two ticks move the
sync accumulator twice. -/
theorem writesAndResetAreIdempotent : Obligations.WritesAndResetAreIdempotent := by
  unfold Obligations.WritesAndResetAreIdempotent
  refine ⟨fun i s => ?_, tick_not_idempotent⟩
  cases i with
  | tick e => trivial
  | wrSyncInc | wrG1Inc | wrG1Dec | wrG2Inc | wrG2Dec | reset => exact ⟨_, rfl, rfl⟩
  | mapLog | mapChrom | mapPenta => exact ⟨_, rfl, rfl⟩

theorem forall_grainId_iff {P : GrainId → Prop} : (∀ k, P k) ↔ P .one ∧ P .two :=
  ⟨fun h => ⟨h .one, h .two⟩, fun h k => by cases k; exacts [h.1, h.2]⟩

/-- Settles O40: the fields of both answers of a tick, and the update that every other operation is. -/
theorem registersHaveTheirWriters : Obligations.RegistersHaveTheirWriters := by
  unfold Obligations.RegistersHaveTheirWriters
  intro i s t h
  cases i with
  | tick e =>
    have isTick {P : Prop} (hi : ∀ e', Instr.tick e ≠ .tick e') : P := absurd rfl (hi e)
    obtain ⟨-, rfl⟩ | ⟨-, -, rfl⟩ := exec_tick_cases h
    · exact ⟨tickNext_cfg e s, tickNext_agents e s, tickNext_refusal e s, isTick, isTick, fun _ _ => tickNext_syncInc e s,
        fun _ _ => tickNext_inc e s .one, fun _ _ => tickNext_dec e s .one, fun _ _ => tickNext_inc e s .two,
        fun _ _ => tickNext_dec e s .two⟩
    · exact ⟨rfl, rfl, rfl, isTick, isTick, fun _ _ => rfl, fun _ _ => rfl, fun _ _ => rfl, fun _ _ => rfl, fun _ _ => rfl⟩
  | wrSyncInc | wrG1Inc | wrG1Dec | wrG2Inc | wrG2Dec | mapLog | mapChrom | mapPenta | reset =>
    cases h
    simp [writeInc, writeDec, forall_grainId_iff]

/-- Settles O28: the frame of the completed tick. -/
theorem tickLeavesMarksAndListsAlone : Obligations.TickLeavesMarksAndListsAlone := by
  unfold Obligations.TickLeavesMarksAndListsAlone
  intro e s hlegal
  exact ⟨tickNext e s, exec_tick_of_legal hlegal, tickNext_cfg e s, tickNext_fault e s, tickNext_refusal e s,
    tickNext_agents e s⟩

/-- Settles O31: without echo the tick and a change of the delay line commute. -/
theorem dryTickIgnoresTheDelayLine : Obligations.DryTickIgnoresTheDelayLine := by
  unfold Obligations.DryTickIgnoresTheDelayLine
  intro s t m c h
  obtain rfl : tickNext false s = t := by simpa only [exec_tick_false, Host.Outcome.next.injEq] using h
  rw [exec_tick_false, tickNext_false_withDelayLine]

end Sys2Proof.Machine
end

section
/-!
PROOF. Steps and runs (spec/20_memory.md R68; spec/60_exceptions.md R201, R202): the step of each kind of next operation, the
invariant that every step keeps, and lawful lists, from which no step marks.
-/

namespace Sys2Proof.Machine

/-! ### The step of an unmarked state, by its next operation -/

section
variable {s t : State} {a : Agent} {w : CommandWord} {i : Instr}

/-- Nobody has an operation to issue: the turn passes (R232; log 2). -/
theorem step_of_nothing_next (hm : s.marked = false) (hn : s.agents.nextOp = none) :
    step s = .next { s with agents := s.agents.pass } := by
  obtain ⟨hf, hr⟩ := State.marked_eq_false.1 hm
  simp only [step, hf, hr, hn]

/-- The next operation is its agent's own: it runs and has been issued. -/
theorem step_of_exec (hm : s.marked = false) (hn : s.agents.nextOp = some (a, w)) (hd : decode w = .ok i)
    (ha : i.agent = a) (hx : exec i s = .next t) : step s = .next (t.retire a) := by
  simp only [step_of_nextOp hm hn, stepOp, hd, if_pos ha, hx]

/-- An operation put before everything else is what the next step performs, and then it is gone. -/
theorem step_of_issueNext (p : Agents) (hm : s.marked = false) (hx : exec i s = .next t) (ht : t.marked = false) :
    step { s with agents := p.issueNext i.agent (encode i) } = .next { t with agents := p } := by
  have hnext : (p.issueNext i.agent (encode i)).nextOp = some (i.agent, encode i) := Agents.nextOp_issueNext p _ _
  have hm' : ({ s with agents := p.issueNext i.agent (encode i) } : State).marked = false := hm
  have ht' : ({ t with agents := p.issueNext i.agent (encode i) } : State).marked = false := ht
  have hgone : (p.issueNext i.agent (encode i)).issued i.agent = p := Agents.issued_issueNext p _ _
  rw [step_of_exec hm' hnext (decode_encode i) rfl (exec_withAgents _ hx), State.retire_of_unmarked _ ht']
  simp only [hgone]

theorem exec_agents (h : exec i s = .next t) : t.agents = s.agents := by
  obtain ⟨-, hagents, -⟩ := registersHaveTheirWriters i s t h
  exact hagents

end

/-- Settles O35, by whether the operation raised a mark. -/
theorem stepRunsTheNextOperation : Obligations.StepRunsTheNextOperation := by
  unfold Obligations.StepRunsTheNextOperation
  intro s t a w i hf hr hn hd ha hx
  rw [step_of_exec (State.marked_eq_false.2 ⟨hf, hr⟩) hn hd ha hx, ← if_congr State.marked_eq_false rfl rfl]
  cases hm : t.marked with
  | false => rw [State.retire_of_unmarked a hm, if_pos rfl]
  | true => rw [State.retire_of_marked a hm, if_neg Bool.noConfusion]

/-- Settles O38: the turn passes, and without one to pass the state is the same. -/
theorem nothingIssuedChangesNothing : Obligations.NothingIssuedChangesNothing := by
  unfold Obligations.NothingIssuedChangesNothing
  intro s hm hn
  refine ⟨step_of_nothing_next hm hn, fun hempty => ?_⟩
  have hpass : s.agents.pass = s.agents := by
    rw [Agents.pass, hempty, List.tail_nil, ← hempty]
  rw [step_of_nothing_next hm hn, hpass]

theorem tableWord_toNat (w : CommandWord) : tableWord 24 w.toNat = some w := by
  have hlt := w.isLt
  have hmod : w.toNat % 2 ^ 24 = w.toNat := Nat.mod_eq_of_lt (by omega)
  rw [tableWord, hmod, if_pos hlt, BitVec.ofNat_toNat, BitVec.setWidth_eq]

theorem issuerOf_encode (i : Instr) : issuerOf (encode i) = i.agent := by
  simp only [issuerOf, decode_encode]

theorem withFetchWord_encode (s : State) (i : Instr) :
    s.withFetchWord 24 (encode i).toNat = { s with agents := s.agents.issueNext i.agent (encode i) } := by
  simp only [State.withFetchWord, tableWord_toNat, issuerOf_encode]

/-- Settles O48: the placed operation is put before everything else. -/
theorem placedOperationRunsNext : Obligations.PlacedOperationRunsNext := by
  unfold Obligations.PlacedOperationRunsNext
  intro s t i hm hx ht
  rw [withFetchWord_encode, step_of_issueNext s.agents hm hx ht, ← exec_agents hx]

/-! ### The lists of a total order (R68; log 1) -/

theorem Agents.issueNext_listOf (p : Agents) (a b : Agent) (w : CommandWord) :
    (p.issueNext a w).listOf b = if a = b then w :: p.listOf b else p.listOf b := by
  cases a <;> cases b <;> rfl

/-- Settles O45, by induction on the order: each operation goes before its agent's list and before the turns. -/
theorem listsKeepEachAgentsOrder : Obligations.ListsKeepEachAgentsOrder := by
  unfold Obligations.ListsKeepEachAgentsOrder
  intro l
  induction l with
  | nil => exact ⟨fun a => by cases a <;> rfl, rfl⟩
  | cons x rest ih =>
    obtain ⟨hlists, hturns⟩ := ih
    obtain ⟨a, w⟩ := x
    constructor
    · intro b
      rw [Agents.ofOrder, Agents.issueNext_listOf, hlists, List.filter_cons]
      by_cases hab : a = b <;> simp [hab]
    · exact congrArg (a :: ·) hturns

/-- Settles O46, by induction on the order: each step performs the operation put first. -/
theorem runPerformsTheTotalOrder : Obligations.RunPerformsTheTotalOrder := by
  unfold Obligations.RunPerformsTheTotalOrder
  intro l
  induction l with
  | nil =>
    intro s t _ _ h
    cases h
    rfl
  | cons x rest ih =>
    intro s t hown hm h
    obtain ⟨a, i⟩ := x
    obtain ⟨hi, hrest⟩ := List.forall_mem_cons.1 hown
    obtain ⟨u, hx, hu, hrun⟩ := execAll_cons_eq_some.1 h
    obtain rfl : i.agent = a := hi
    have hstep := step_of_issueNext (Agents.ofOrder (rest.map fun x => (x.1, encode x.2))) hm hx hu
    rw [List.length_cons, List.map_cons, Agents.ofOrder, stepN, hstep]
    exact ih u t hrest hu hrun

/-! ### The invariant (R37, R43, R201) -/

theorem faultReachable_decodeFault (d : DecodeFault) (w : CommandWord) :
    faultReachable (some (decodeFault d w)) = true := by cases d <;> rfl

theorem State.Inv.cursor_lt {s : State} (h : s.Inv) : s.cursor.toNat < 2048 := by
  obtain ⟨-, hc, -⟩ := h
  exact hc

/-- S7 keeps the delay RAM's list canonical. -/
theorem tickNext_wf (e : Bool) {s : State} (hwf : s.delay.wf = true) (hc : s.cursor.toNat < 2048) :
    (tickNext e s).delay.wf = true := by
  rw [tickNext_delay]
  cases e with
  | false => exact hwf
  | true => exact Memory.wf_put hc hwf

/-- An operation keeps the invariant: a tick writes a cell and advances within the ring, and with a legal cursor it does not
raise. -/
theorem exec_keeps_inv (i : Instr) (s t : State) (hs : s.Inv) (h : exec i s = .next t) : t.Inv := by
  have hcursor : t.cursor.toNat < delayLen := exec_cursor_lt i s t hs.cursor_lt h
  obtain ⟨hwf, hc, hfault⟩ := hs
  cases i with
  | tick e =>
    obtain ⟨-, rfl⟩ | ⟨-, hrange, -⟩ := exec_tick_cases h
    · exact ⟨tickNext_wf e hwf hc, hcursor, by rwa [tickNext_fault]⟩
    · exact absurd hc (Nat.not_lt.2 hrange)
  | wrSyncInc | wrG1Inc | wrG1Dec | wrG2Inc | wrG2Dec | mapLog | mapChrom | mapPenta | reset =>
    cases h
    exact ⟨hwf, hcursor, hfault⟩

theorem step_keeps_inv : ∀ s t : State, s.Inv → step s = .next t → t.Inv :=
  step_keeps_of_exec_keeps (fun _ _ h => h) (fun _ d w ⟨hwf, hc, _⟩ => ⟨hwf, hc, faultReachable_decodeFault d w⟩)
    (fun _ _ h => h) exec_keeps_inv

theorem powerOn_inv (c : Config) {d : Memory} (p : Agents) (hd : d.wf = true) : (State.powerOn c d p).Inv :=
  ⟨hd, by rw [State.powerOn_cursor]; decide, rfl⟩

/-- Settles O41: every operation keeps the invariant, and decoding raises only marks that it allows. -/
theorem stepKeepsTheInvariant : Obligations.StepKeepsTheInvariant := by
  unfold Obligations.StepKeepsTheInvariant
  exact step_keeps_inv

/-- Settles O42: the delay RAM is the given one, the cursor 0, no mark set. -/
theorem powerOnHasTheInvariant : Obligations.PowerOnHasTheInvariant := by
  unfold Obligations.PowerOnHasTheInvariant
  exact fun c d p => powerOn_inv c p

/-! ### Lawful lists (R88, R201) -/

/-- A word that an agent may issue decodes to an operation of that agent. -/
theorem decode_of_wordFor {a : Agent} {w : CommandWord} (h : wordFor a w = true) :
    ∃ i, decode w = .ok i ∧ i.agent = a := by
  obtain ⟨r, hr, hboth⟩ := List.any_eq_true.1 h
  obtain ⟨hsel, hagent⟩ := Bool.and_eq_true_iff.1 hboth
  obtain ⟨i, hi, -, hia⟩ := readFrom_of_selects_row r hr (eq_of_beq hsel)
  exact ⟨i, decode_of_readFrom hi, hia.trans (eq_of_beq hagent)⟩

/-- Issuing an operation leaves the rest of the lists, so what was lawful stays so. -/
theorem Agents.lawful_issued {p : Agents} (a : Agent) (h : p.lawful = true) : (p.issued a).lawful = true := by
  rw [Agents.lawful_iff] at h ⊢
  intro b w hw
  rw [Agents.issued_listOf] at hw
  split at hw
  · next hab => exact h b w (hab ▸ List.mem_of_mem_tail hw)
  · exact h b w hw

/-- With the cursor in the ring no operation marks. -/
theorem exec_unmarked {i : Instr} {s t : State} (hc : s.cursor.toNat < 2048) (hm : s.marked = false)
    (h : exec i s = .next t) : t.marked = false := by
  cases i with
  | tick e =>
    obtain ⟨-, rfl⟩ | ⟨-, hrange, -⟩ := exec_tick_cases h
    · exact (tickNext_marked e s).trans hm
    · exact absurd hc (Nat.not_lt.2 hrange)
  | wrSyncInc | wrG1Inc | wrG1Dec | wrG2Inc | wrG2Dec | mapLog | mapChrom | mapPenta | reset => cases h; exact hm

/-- A state with the invariant, no mark, and lawful lists. -/
def State.Lawful (s : State) : Prop := s.Inv ∧ s.marked = false ∧ s.agents.lawful = true

theorem step_of_lawful (s : State) (hs : s.Lawful) : ∃ t, step s = .next t ∧ t.Lawful := by
  obtain ⟨hinv, hm, hlawful⟩ := hs
  cases hn : s.agents.nextOp with
  | none => exact ⟨_, step_of_nothing_next hm hn, hinv, hm, hlawful⟩
  | some next =>
    obtain ⟨a, w⟩ := next
    have hword : wordFor a w = true := (Agents.lawful_iff _).1 hlawful a w (Agents.mem_of_nextOp hn)
    obtain ⟨i, hd, ha⟩ := decode_of_wordFor hword
    obtain ⟨u, hx⟩ := exec_answers i s
    have hu : u.marked = false := exec_unmarked hinv.cursor_lt hm hx
    refine ⟨{ u with agents := u.agents.issued a }, ?_, exec_keeps_inv i s u hinv hx, hu, ?_⟩
    · rw [step_of_exec hm hn hd ha hx, State.retire_of_unmarked a hu]
    · rw [exec_agents hx]
      exact Agents.lawful_issued a hlawful

/-- Where every step from a kind of state answers one of that kind, so does every number of steps. -/
theorem stepN_answers {P : State → Prop} (hstep : ∀ s, P s → ∃ t, step s = .next t ∧ P t) (n : Nat) :
    ∀ s, P s → ∃ t, stepN n s = .next t ∧ P t := by
  induction n with
  | zero => exact fun s hs => ⟨s, rfl, hs⟩
  | succ n ih =>
    intro s hs
    obtain ⟨u, hu, hPu⟩ := hstep s hs
    simp only [stepN, hu]
    exact ih u hPu

/-- Settles O51: the next operation, if there is one, is its agent's own and completes. -/
theorem lawfulStepsStayUnmarked : Obligations.LawfulStepsStayUnmarked := by
  unfold Obligations.LawfulStepsStayUnmarked
  exact fun s hinv hm hlawful => step_of_lawful s ⟨hinv, hm, hlawful⟩

/-- Settles O43: power-on is lawful with lawful lists, and every step stays so. -/
theorem lawfulRunsAreNeverMarked : Obligations.LawfulRunsAreNeverMarked := by
  unfold Obligations.LawfulRunsAreNeverMarked
  intro c d p n hd hp
  obtain ⟨t, hrun, hinv, hm, -⟩ := stepN_answers step_of_lawful n (State.powerOn c d p) ⟨powerOn_inv c p hd, rfl, hp⟩
  exact ⟨t, hrun, hm, hinv⟩

end Sys2Proof.Machine
end

section
/-!
PROOF. A tick on the registers (spec/41_grain_oscillator.md R120-R125, R128, R131, R135): its fields as the rules' formulas,
the triangle, the decay law as an iterated map of naturals, and what increments of 0 and the largest increments do.
-/

namespace Sys2Proof.Machine

/-! ### The grains and the byte of one tick -/

/-- S2 and S3 on one accumulator. -/
theorem tickNext_acc (e : Bool) (s : State) (k : GrainId) :
    ((tickNext e s).grain k).acc = (if s.carries then 0 else (s.grain k).acc) + (s.grain k).inc := by
  rw [tickNext_grain, Grain.decayed_acc]
  by_cases h : s.carries
  · rw [oscillatorStages_grain_of_carries _ h, if_pos h]
    rfl
  · rw [oscillatorStages_grain_of_not_carries _ h, if_neg h]
    rfl

/-- Settles O13, field by field of the completed tick. -/
theorem tickAdvancesAndDecaysTheOscillators : Obligations.TickAdvancesAndDecaysTheOscillators := by
  unfold Obligations.TickAdvancesAndDecaysTheOscillators
  intro e s hlegal
  exact ⟨tickNext e s, exec_tick_of_legal hlegal, tickNext_syncAcc_toNat e s, tickNext_syncInc e s, fun k =>
    ⟨tickNext_acc_toNat e s k, tickNext_amp_toNat e s k, tickNext_inc e s k, tickNext_dec e s k⟩⟩

/-- Settles O25, by the byte of S7 as the spec's. -/
theorem tickDrivesTheOutputs : Obligations.TickDrivesTheOutputs := by
  unfold Obligations.TickDrivesTheOutputs
  intro e s hlegal
  refine ⟨tickNext e s, exec_tick_of_legal hlegal, ?_, tickNext_status e s⟩
  rw [tickNext_outReg, tickByte_toNat]

/-- Settles O16: the magnitude as a number, below bit 15 as it is and from there on folded. -/
theorem triangleRisesAndFalls : Obligations.TriangleRisesAndFalls := by
  unfold Obligations.TriangleRisesAndFalls
  intro g
  have hacc := g.acc.isLt
  simp only [Grain.magnitude_toNat, TriLsb.bit]
  refine ⟨fun h => ?_, fun h => ?_, fun h => ?_, fun h => ?_⟩
  · rw [if_neg (Nat.not_le.2 h)]
    omega
  · rw [if_pos h]
    omega
  · rw [if_neg (Nat.not_le.2 h)]
    omega
  · rw [if_pos h]
    omega

/-- Settles O47: the tick sees the increment of grain 1 that the first write left, and of grain 2 that the second has not yet
replaced. -/
theorem tickBetweenWritesSeesATornSet : Obligations.TickBetweenWritesSeesATornSet := by
  unfold Obligations.TickBetweenWritesSeesATornSet
  intro s e v w hm hlegal
  have htick : exec (.tick e) (writeInc .one v s) = .next (tickNext e (writeInc .one v s)) := exec_tick_of_legal hlegal
  have hm' : (tickNext e (writeInc .one v s)).marked = false := (tickNext_marked e _).trans hm
  refine ⟨writeInc .two w (tickNext e (writeInc .one v s)), ?run, ?acc1, ?acc2, ?inc1, rfl⟩
  case run => exact execAll_cons_eq_some.2 ⟨_, rfl, hm, execAll_cons_eq_some.2 ⟨_, htick, hm',
    execAll_cons_eq_some.2 ⟨_, rfl, hm', execAll_nil _⟩⟩⟩
  case acc1 => exact tickNext_acc e (writeInc .one v s) .one
  case acc2 => exact tickNext_acc e (writeInc .one v s) .two
  case inc1 => exact tickNext_inc e (writeInc .one v s) .one

/-! ### Increments of 0 (R135) and cadence (R170, R237) -/

theorem not_carries_of_syncInc_eq_zero {s : State} (h : s.syncInc = 0) : ¬ s.carries := by
  rw [State.carries, h]
  exact Nat.not_le.2 s.syncAcc.isLt

/-- At phase 0 the triangle is 0, so the grain is silent. -/
theorem Grain.product_of_acc_eq_zero {g : Grain} (t : TriLsb) (h : g.acc = 0) : g.product t = 0 := by
  have htriangle : triangleOf t.bit 0 = 0 := by simp [triangleOf]
  rw [Grain.product_eq, h]
  exact (congrArg (· * _) htriangle).trans (Nat.zero_mul _)

/-- Settles O23: with increment 0 S3 adds nothing to the phase that S2 left. -/
theorem zeroIncrementsHoldStill : Obligations.ZeroIncrementsHoldStill := by
  unfold Obligations.ZeroIncrementsHoldStill
  intro e s k hlegal
  have hkeeps : (s.grain k).inc = 0 → ((tickNext e s).grain k).acc = if s.carries then 0 else (s.grain k).acc := by
    intro hinc
    rw [tickNext_acc, hinc]
    exact BitVec.add_zero _
  refine ⟨tickNext e s, exec_tick_of_legal hlegal, hkeeps, fun hinc hzero => ?silent, fun hsync => ?sync⟩
  case silent =>
    have hacc : ((tickNext e s).grain k).acc = 0 := by
      rw [hkeeps hinc]
      rcases hzero with h | h
      · exact if_pos h
      · rw [h, ite_self]
    have hosc : ((oscillatorStages (.tick e) s).grain k).acc = 0 := by rwa [tickNext_grain, Grain.decayed_acc] at hacc
    exact ⟨(tickNext_inc e s k).trans hinc, hacc, Grain.product_of_acc_eq_zero _ hosc⟩
  case sync => exact ⟨not_carries_of_syncInc_eq_zero hsync, (tickNext_syncInc e s).trans hsync⟩

/-- Settles O24: half of the range is added at each tick; or all of it less 1. -/
theorem syncCadence : Obligations.SyncCadence := by
  unfold Obligations.SyncCadence
  intro e s t
  have hacc := s.syncAcc.isLt
  constructor
  · intro hinc h hfault
    obtain ⟨-, rfl⟩ | ⟨-, -, rfl⟩ := exec_tick_cases h
    · have hhalf : s.syncInc.toNat = 32768 := congrArg BitVec.toNat hinc
      rw [State.carries, State.carries, tickNext_syncAcc_toNat, tickNext_syncInc, hhalf]
      omega
    · cases hfault
  · intro hinc
    have hlargest : s.syncInc.toNat = 65535 := congrArg BitVec.toNat hinc
    have hzero : s.syncAcc = 0 ↔ s.syncAcc.toNat = 0 := BitVec.toNat_inj.symm
    rw [State.carries, hlargest, Ne, hzero]
    omega

/-! ### The decay law (R125, R131) -/

/-- S5 on naturals: an amplitude `a` after one decay with rate `d`. -/
def decayOf (d a : Nat) : Nat := a - a / 256 * d

theorem decayOf_le (d a : Nat) : decayOf d a ≤ a := Nat.sub_le _ _

theorem decayOf_of_lt {a : Nat} (d : Nat) (h : a < 256) : decayOf d a = a := by
  rw [decayOf, Nat.div_eq_of_lt h, Nat.zero_mul, Nat.sub_zero]

theorem decayOf_lt {d a : Nat} (hd : 1 ≤ d) (ha : 256 ≤ a) : decayOf d a < a := by
  have hpos : 0 < a / 256 * d := Nat.mul_pos (Nat.div_pos ha (by decide)) hd
  exact Nat.sub_lt (by omega) hpos

/-- Each decay takes at least 1 until the amplitude is below 256. -/
theorem iterate_decayOf_lt {d : Nat} (hd : 1 ≤ d) (n : Nat) : ∀ a, a ≤ n + 255 → (decayOf d)^[n] a < 256 := by
  induction n with
  | zero => exact fun a ha => by rw [Function.iterate_zero_apply]; omega
  | succ n ih =>
    intro a ha
    rw [Function.iterate_succ_apply]
    apply ih
    by_cases hlt : a < 256
    · rw [decayOf_of_lt d hlt]
      omega
    · have := decayOf_lt hd (Nat.le_of_not_lt hlt)
      omega

/-- Below 256 an amplitude stays. -/
theorem iterate_decayOf_of_lt {a : Nat} (d n : Nat) (h : a < 256) : (decayOf d)^[n] a = a :=
  Function.iterate_fixed (decayOf_of_lt d h) n

theorem ampAfter_of_not_carries {s : State} (k : GrainId) (h : ¬ s.carries) :
    s.ampAfter k = decayOf (s.grain k).dec.toNat (s.grain k).amp.toNat := by
  rw [State.ampAfter, State.ampHeard, if_neg h]
  rfl

/-- While no carry comes, ticks iterate the decay. -/
theorem ticksNext_amp_toNat (k : GrainId) (es : List Bool) : ∀ {s : State},
    s.syncAcc.toNat + es.length * s.syncInc.toNat < 65536 →
    ((ticksNext es s).grain k).amp.toNat = (decayOf (s.grain k).dec.toNat)^[es.length] (s.grain k).amp.toNat := by
  induction es with
  | nil => exact fun _ => rfl
  | cons e es ih =>
    intro s h
    rw [List.length_cons, Nat.succ_mul] at h
    have hno : ¬ s.carries := by
      unfold State.carries
      omega
    have hrest : (tickNext e s).syncAcc.toNat + es.length * (tickNext e s).syncInc.toNat < 65536 := by
      rw [tickNext_syncAcc_toNat, tickNext_syncInc]
      omega
    rw [ticksNext_cons, ih hrest, tickNext_dec, tickNext_amp_toNat, ampAfter_of_not_carries k hno, List.length_cons,
      Function.iterate_succ_apply]

/-- Settles O18, by the three cases of one decay. -/
theorem decayFallsExactlyFrom256 : Obligations.DecayFallsExactlyFrom256 := by
  unfold Obligations.DecayFallsExactlyFrom256
  intro e s hlegal hno
  refine ⟨tickNext e s, exec_tick_of_legal hlegal, fun k => ?_⟩
  have hamp : ((tickNext e s).grain k).amp.toNat = decayOf (s.grain k).dec.toNat (s.grain k).amp.toNat := by
    rw [tickNext_amp_toNat, ampAfter_of_not_carries k hno]
  refine ⟨hamp.trans_le (decayOf_le _ _), fun h => BitVec.eq_of_toNat_eq ?_, fun hrate hhigh =>
    hamp.trans_lt (decayOf_lt hrate hhigh)⟩
  rcases h with hrate | hlow
  · rw [hamp, hrate]
    exact Nat.sub_zero _
  · rw [hamp, decayOf_of_lt _ hlow]

/-- Settles O19, by the iterated decay. -/
theorem decayReachesBelow256 : Obligations.DecayReachesBelow256 := by
  unfold Obligations.DecayReachesBelow256
  intro es s k hm hc hno hrate hlen
  refine ⟨ticksNext es s, tickAll_eq_some hm hc es, ?_⟩
  rw [ticksNext_amp_toNat k es hno]
  exact iterate_decayOf_lt hrate _ _ (by omega)

/-- 77 decays with rate 1, an eighteenth part of the 1386 of R131's figure. -/
def decays77 : Nat → Nat := (decayOf 1)^[77]

theorem decays77_checkpoints :
    decays77 32767 = 24274 ∧ decays77 24274 = 17990 ∧ decays77 17990 = 13341 ∧ decays77 13341 = 9905 ∧
    decays77 9905 = 7362 ∧ decays77 7362 = 5480 ∧ decays77 5480 = 4086 ∧ decays77 4086 = 3056 ∧
    decays77 3056 = 2294 ∧ decays77 2294 = 1733 ∧ decays77 1733 = 1315 ∧ decays77 1315 = 1005 ∧
    decays77 1005 = 774 ∧ decays77 774 = 617 ∧ decays77 617 = 487 ∧ decays77 487 = 410 ∧
    decays77 410 = 333 ∧ decays77 333 = 256 := by
  decide

theorem iterate_decayOf_one_1386 : (decayOf 1)^[1386] 32767 = 256 :=
  calc (decayOf 1)^[1386] 32767
      = decays77^[18] 32767 := congrFun (Function.iterate_mul (decayOf 1) 77 18) 32767
    _ = 256 := by simp only [Function.iterate_succ_apply, Function.iterate_zero_apply, decays77_checkpoints]

theorem iterate_decayOf_one_of_ge {n : Nat} (h : 1387 ≤ n) : (decayOf 1)^[n] 32767 = 255 := by
  obtain ⟨m, rfl⟩ := Nat.exists_eq_add_of_le' h
  rw [Function.iterate_add_apply, Function.iterate_succ_apply', iterate_decayOf_one_1386]
  exact iterate_decayOf_of_lt 1 m (by decide)

theorem iterate_decayOf_255_of_ge {n : Nat} (h : 2 ≤ n) : (decayOf 255)^[n] 32767 = 127 := by
  obtain ⟨m, rfl⟩ := Nat.exists_eq_add_of_le' h
  rw [Function.iterate_add_apply]
  exact iterate_decayOf_of_lt 255 m (by decide)

/-- Settles O20, by the iterated decay from 0x7FFF, whose values below 256 stay. -/
theorem decayFiguresFromMaximum : Obligations.DecayFiguresFromMaximum := by
  unfold Obligations.DecayFiguresFromMaximum
  intro es s k hm hc hno hmax
  have hamp : (s.grain k).amp.toNat = 32767 := congrArg BitVec.toNat hmax
  refine ⟨ticksNext es s, tickAll_eq_some hm hc es, ?_⟩
  rw [ticksNext_amp_toNat k es hno, hamp]
  constructor
  · intro hrate
    rw [hrate]
    exact ⟨fun hlen => by rw [hlen]; rfl, iterate_decayOf_255_of_ge⟩
  · intro hrate
    rw [hrate]
    exact ⟨fun hlen => by rw [hlen]; exact iterate_decayOf_one_1386, iterate_decayOf_one_of_ge⟩

/-- Settles O21: a tick that does not carry only decays, RESET sets 0, and nothing else writes an amplitude. -/
theorem amplitudeNeverRisesButByRetrigger : Obligations.AmplitudeNeverRisesButByRetrigger := by
  unfold Obligations.AmplitudeNeverRisesButByRetrigger
  intro i s t h k
  cases i with
  | tick e =>
    by_cases hcarries : s.carries
    · exact .inr ⟨⟨e, rfl⟩, hcarries⟩
    · left
      obtain ⟨-, rfl⟩ | ⟨-, -, rfl⟩ := exec_tick_cases h
      · rw [tickNext_amp_toNat, ampAfter_of_not_carries k hcarries]
        exact decayOf_le _ _
      · exact Nat.le_refl _
  | reset =>
    left
    rw [exec_reset] at h
    cases h
    cases k <;> exact Nat.zero_le _
  | wrSyncInc | wrG1Inc | wrG1Dec | wrG2Inc | wrG2Dec | mapLog | mapChrom | mapPenta =>
    obtain ⟨-, -, -, -, hkeeps, -⟩ := registersHaveTheirWriters _ s t h
    obtain ⟨-, -, -, -, hgrains⟩ := hkeeps nofun nofun
    obtain ⟨-, hamp⟩ := hgrains k
    exact .inl (Nat.le_of_eq (congrArg BitVec.toNat hamp))

end Sys2Proof.Machine
end

section
/-!
PROOF. Silence from reset (spec/70_reset_and_hazards.md R234): while `sync_inc` is 0 and both amplitudes are 0 no tick
retriggers and every sample is 0, and only MAIN's write of a nonzero `sync_inc` leaves such a state.
-/

namespace Sys2Proof.Machine

/-! ### A tick of a silent state -/

section
variable {s : State} (h : s.silent)
include h

theorem State.silent.syncInc_eq : s.syncInc = 0 := by
  obtain ⟨hinc, -, -⟩ := h
  exact hinc

theorem State.silent.amp_eq (k : GrainId) : (s.grain k).amp = 0 := by
  obtain ⟨-, h1, h2⟩ := h
  cases k with
  | one => exact h1
  | two => exact h2

theorem State.silent.not_carries : ¬ s.carries := not_carries_of_syncInc_eq_zero h.syncInc_eq

theorem State.silent.ampHeard_eq (k : GrainId) : s.ampHeard k = 0 := by
  rw [State.ampHeard, if_neg h.not_carries, h.amp_eq]
  rfl

theorem State.silent.sampleOf_eq : s.sampleOf = 0 := by
  have hsum : s.sumOf = 0 := by simp only [State.sumOf, h.ampHeard_eq, Nat.zero_div, Nat.mul_zero]
  rw [State.sampleOf, hsum, Nat.zero_div, Nat.zero_min]

theorem State.silent.tickNext_silent (e : Bool) : (tickNext e s).silent := by
  have hamp : ∀ k, ((tickNext e s).grain k).amp = 0 := by
    intro k
    rw [← BitVec.toNat_inj, tickNext_amp_toNat, State.ampAfter, h.ampHeard_eq, Nat.zero_sub]
    rfl
  exact ⟨(tickNext_syncInc e s).trans h.syncInc_eq, hamp .one, hamp .two⟩

theorem State.silent.tickByte_false_eq : tickByte false s = 0 := by
  rw [← BitVec.toNat_inj, tickByte_toNat, State.byteOf, if_neg Bool.false_ne_true, h.sampleOf_eq]
  rfl

end

/-! ### What a silent state emits -/

/-- No output event of a tick without echo but 0. -/
def Event.Quiet (ev : Event) : Prop := ev.op = .tick false → ∀ v, ev.kind = .out v → v = 0

/-- `t` is silent, and what it emitted since `s` is quiet. -/
def SilentSince (s t : State) : Prop :=
  t.silent ∧ ∃ new, t.events = s.events ++ new ∧ ∀ ev ∈ new, ev.Quiet

theorem silentSince_of_events_eq {s t : State} (ht : t.silent) (h : t.events = s.events) : SilentSince s t :=
  ⟨ht, [], by rw [h, List.append_nil], nofun⟩

theorem quiet_of_mem_outputEvents {e : Bool} {y : Byte} {o : S8Order} (hy : e = false → y = 0) :
    ∀ ev ∈ outputEvents (.tick e) e y o, ev.Quiet := by
  have hout : Event.Quiet ⟨.tick e, .out y⟩ := by
    intro hop v hv
    cases hop
    cases hv
    exact hy rfl
  have hstatus : Event.Quiet ⟨.tick e, .status e⟩ := fun _ _ hv => nomatch hv
  cases o with
  | outFirst => exact List.forall_mem_cons.2 ⟨hout, List.forall_mem_singleton.2 hstatus⟩
  | statusFirst => exact List.forall_mem_cons.2 ⟨hstatus, List.forall_mem_singleton.2 hout⟩

theorem tickNext_silentSince (e : Bool) {s : State} (h : s.silent) : SilentSince s (tickNext e s) := by
  have hno : s.retriggers = false := Bool.eq_false_iff.2 (mt s.retriggers_iff.1 h.not_carries)
  have hevents := tickNext_events e s
  rw [retriggerEvents, hno, if_neg Bool.false_ne_true, List.nil_append] at hevents
  refine ⟨h.tickNext_silent e, _, hevents, quiet_of_mem_outputEvents ?_⟩
  rintro rfl
  exact h.tickByte_false_eq

/-- An operation leaves the silence only by writing a nonzero `sync_inc`. -/
theorem exec_silentSince {i : Instr} {s t : State} (hs : s.silent) (hi : ∀ v, i = .wrSyncInc v → v = 0)
    (h : exec i s = .next t) : SilentSince s t := by
  cases i with
  | tick e =>
    obtain ⟨-, rfl⟩ | ⟨-, -, rfl⟩ := exec_tick_cases h
    · exact tickNext_silentSince e hs
    · exact silentSince_of_events_eq hs rfl
  | wrSyncInc v =>
    obtain ⟨-, hamps⟩ := hs
    cases h
    exact silentSince_of_events_eq ⟨hi v rfl, hamps⟩ rfl
  | wrG1Inc | wrG1Dec | wrG2Inc | wrG2Dec => cases h; exact silentSince_of_events_eq hs rfl
  | mapLog | mapChrom | mapPenta =>
    cases h
    exact ⟨hs, [_], rfl, List.forall_mem_singleton.2 fun _ _ hv => nomatch hv⟩
  | reset => cases h; exact silentSince_of_events_eq ⟨rfl, rfl, rfl⟩ rfl

theorem step_silentSince {s t : State} (hs : s.silent) (hsync : ¬ s.startsSync) (h : step s = .next t) :
    SilentSince s t := by
  obtain ⟨-, -, ⟨-, rfl⟩ | ⟨a, w, hn, ⟨d, -, rfl⟩ | ⟨i, hd, ⟨-, rfl⟩ | ⟨ha, u, hu, rfl⟩⟩⟩⟩ := step_cases h
  · exact silentSince_of_events_eq hs rfl
  · exact silentSince_of_events_eq hs rfl
  · exact silentSince_of_events_eq hs rfl
  · have hi : ∀ v, i = .wrSyncInc v → v = 0 := by
      rintro v rfl
      obtain rfl : Agent.main = a := ha
      by_contra hv
      exact hsync ⟨w, v, hn, hd, hv⟩
    have hsince : SilentSince s u := exec_silentSince hs hi hu
    unfold State.retire
    split <;> exact hsince

/-- A run none of whose steps writes a nonzero `sync_inc` stays silent and emits quietly. -/
theorem stepN_silent {n : Nat} {t : State} : ∀ {s : State}, s.silent → (∀ ev ∈ s.events, ev.Quiet) →
    (∀ m u, m < n → stepN m s = .next u → ¬ u.startsSync) → stepN n s = .next t →
    t.silent ∧ ∀ ev ∈ t.events, ev.Quiet := by
  induction n with
  | zero =>
    intro s hs hquiet _ h
    cases h
    exact ⟨hs, hquiet⟩
  | succ n ih =>
    intro s hs hquiet hsync h
    rw [stepN] at h
    split at h
    · next u hu =>
      obtain ⟨hsilent, new, hevents, hnew⟩ := step_silentSince hs (hsync 0 s (Nat.succ_pos n) rfl) hu
      refine ih hsilent ?_ (fun m v hm hv => hsync (m + 1) v (Nat.succ_lt_succ hm) ?_) h
      · rw [hevents]
        exact List.forall_mem_append.2 ⟨hquiet, hnew⟩
      · rw [stepN, hu]
        exact hv
    · cases h
    · cases h

/-- Settles O34: the silence is kept step by step up to a write of a nonzero `sync_inc`, holds at power-on and after RESET,
and the mean of 0 with a cell is half of it. -/
theorem silenceUntilSyncIsWritten : Obligations.SilenceUntilSyncIsWritten := by
  unfold Obligations.SilenceUntilSyncIsWritten
  refine ⟨fun s t => step_silentSince, ?run, ?reset, ?echo⟩
  case run =>
    intro c d p n t hsync h
    exact stepN_silent (s := State.powerOn c d p) ⟨rfl, rfl, rfl⟩ nofun hsync h
  case reset =>
    intro s t h
    rw [exec_reset] at h
    cases h
    exact ⟨rfl, rfl, rfl⟩
  case echo =>
    intro s hs hc
    refine ⟨tickNext true s, exec_tick_of_legal fun _ => hc, ?_⟩
    rw [tickNext_outReg, tickByte_toNat, State.byteOf, if_pos rfl, hs.sampleOf_eq, Nat.zero_add]

end Sys2Proof.Machine
end

section
/-!
PROOF. The delay RAM as a ring (spec/42_echo_delay_line.md R158) and its canonical list (spec/20_memory.md R60; log 8): what
any number of ticks does to the cells and the cursor, and that equal contents are equal lists.
-/

namespace Sys2Proof.Machine

/-! ### Equal contents (log 8) -/

section
variable {lo a : Nat} {x : Byte} {m m' : Memory}

theorem Memory.risingFrom_cons_iff :
    Memory.risingFrom lo ((a, x) :: m) = true ↔ lo ≤ a ∧ Memory.risingFrom (a + 1) m = true := by
  simp only [Memory.risingFrom, Bool.and_eq_true, decide_eq_true_eq]

theorem Memory.cellsOk_cons_iff :
    Memory.cellsOk ((a, x) :: m) = true ↔ a < delayLen ∧ x ≠ Memory.unlisted ∧ Memory.cellsOk m = true := by
  simp only [Memory.cellsOk, List.all_cons, Bool.and_eq_true, decide_eq_true_eq, and_assoc]

theorem Memory.get_head : Memory.get ((a, x) :: m) a = x := if_pos rfl

theorem Memory.get_tail {b : Nat} (h : a ≠ b) : Memory.get ((a, x) :: m) b = Memory.get m b := if_neg h

/-- A list whose first cell is `a` tells itself from one that names no cell up to `a`. -/
theorem Memory.get_head_ne (hcells : Memory.cellsOk ((a, x) :: m) = true) (hrising : Memory.risingFrom (a + 1) m' = true) :
    ∃ b, b < delayLen ∧ Memory.get ((a, x) :: m) b ≠ Memory.get m' b := by
  obtain ⟨ha, hx, -⟩ := Memory.cellsOk_cons_iff.1 hcells
  refine ⟨a, ha, ?_⟩
  rw [Memory.get_head, Memory.get_of_lt hrising (Nat.lt_succ_self a)]
  exact hx

/-- Canonical lists are equal where their contents are, by induction along both: a cell that one of them names first would
tell them apart. -/
theorem Memory.eq_of_get_eq (m : Memory) : ∀ {lo : Nat} {m' : Memory},
    Memory.risingFrom lo m = true → Memory.cellsOk m = true → Memory.risingFrom lo m' = true → Memory.cellsOk m' = true →
    (∀ a, a < delayLen → m.get a = m'.get a) → m = m' := by
  induction m with
  | nil =>
    intro lo m' _ _ _ hcells' hget
    cases m' with
    | nil => rfl
    | cons c m' =>
      obtain ⟨b, hb, hne⟩ := Memory.get_head_ne (m' := []) hcells' rfl
      exact absurd (hget b hb).symm hne
  | cons c m ih =>
    intro lo m' hrising hcells hrising' hcells' hget
    obtain ⟨a, x⟩ := c
    obtain ⟨-, htail⟩ := Memory.risingFrom_cons_iff.1 hrising
    obtain ⟨ha, -, hcellsTail⟩ := Memory.cellsOk_cons_iff.1 hcells
    cases m' with
    | nil =>
      obtain ⟨b, hb, hne⟩ := Memory.get_head_ne (m' := []) hcells rfl
      exact absurd (hget b hb) hne
    | cons c' m' =>
      obtain ⟨a', x'⟩ := c'
      obtain ⟨-, htail'⟩ := Memory.risingFrom_cons_iff.1 hrising'
      obtain ⟨-, -, hcellsTail'⟩ := Memory.cellsOk_cons_iff.1 hcells'
      obtain hlt | rfl | hgt := Nat.lt_trichotomy a a'
      · obtain ⟨b, hb, hne⟩ := Memory.get_head_ne hcells (Memory.risingFrom_cons_iff.2 ⟨hlt, htail'⟩)
        exact absurd (hget b hb) hne
      · have hx : x = x' := by
          have h := hget a ha
          rwa [Memory.get_head, Memory.get_head] at h
        have htails : m = m' := by
          refine ih htail hcellsTail htail' hcellsTail' fun b hb => ?_
          by_cases hab : a = b
          · rw [← hab, Memory.get_of_lt htail (Nat.lt_succ_self a), Memory.get_of_lt htail' (Nat.lt_succ_self a)]
          · have h := hget b hb
            rwa [Memory.get_tail hab, Memory.get_tail hab] at h
        rw [hx, htails]
      · obtain ⟨b, hb, hne⟩ := Memory.get_head_ne hcells' (Memory.risingFrom_cons_iff.2 ⟨hgt, htail⟩)
        exact absurd (hget b hb).symm hne

end

/-- Settles O44, by induction along both lists. -/
theorem equalDelayContentsAreEqualLists : Obligations.EqualDelayContentsAreEqualLists := by
  unfold Obligations.EqualDelayContentsAreEqualLists
  intro m m' hm hm' hget
  obtain ⟨hrising, hcells⟩ := (Memory.wf_iff m).1 hm
  obtain ⟨hrising', hcells'⟩ := (Memory.wf_iff m').1 hm'
  exact Memory.eq_of_get_eq m hrising hcells hrising' hcells' hget

/-! ### The ring (R158) -/

theorem tickNext_true_cursor_toNat {s : State} (hc : s.cursor.toNat < 2048) :
    (tickNext true s).cursor.toNat = (s.cursor.toNat + 1) % 2048 := by
  rw [tickNext_cursor, if_pos rfl, advanceCursor_toNat hc]

theorem tickNext_true_get_cursor {s : State} (hwf : s.delay.wf = true) :
    (tickNext true s).delay.get s.cursor.toNat = (tickNext true s).outReg := by
  rw [tickNext_delay, if_pos rfl, Memory.get_put_same hwf, tickNext_outReg]

theorem tickNext_true_get_other {s : State} (hwf : s.delay.wf = true) {a : Nat} (h : a ≠ s.cursor.toNat) :
    (tickNext true s).delay.get a = s.delay.get a := by
  rw [tickNext_delay, if_pos rfl, Memory.get_put_other hwf _ h]

theorem ticksNext_wf (es : List Bool) : ∀ {s : State}, s.delay.wf = true → s.cursor.toNat < 2048 →
    (ticksNext es s).delay.wf = true := by
  induction es with
  | nil => exact fun hwf _ => hwf
  | cons e es ih => exact fun hwf hc => ih (tickNext_wf e hwf hc) (tickNext_cursor_lt e hc)

/-- The cursor counts echo ticks. -/
theorem ticksNext_cursor_toNat (es : List Bool) : ∀ {s : State}, s.cursor.toNat < 2048 →
    (ticksNext es s).cursor.toNat = (s.cursor.toNat + es.count true) % 2048 := by
  induction es with
  | nil => exact fun hc => (Nat.mod_eq_of_lt hc).symm
  | cons e es ih =>
    intro s hc
    rw [ticksNext_cons, ih (tickNext_cursor_lt e hc)]
    cases e with
    | false => rw [tickNext_cursor, if_neg Bool.false_ne_true, List.count_cons_of_ne Bool.false_ne_true]
    | true =>
      rw [tickNext_true_cursor_toNat hc, List.count_cons_self]
      omega

/-- A cell that the cursor has not passed holds what it held. -/
theorem ticksNext_get {a : Nat} (ha : a < 2048) (es : List Bool) : ∀ {s : State}, s.delay.wf = true →
    s.cursor.toNat < 2048 → es.count true ≤ (a + 2048 - s.cursor.toNat) % 2048 →
    (ticksNext es s).delay.get a = s.delay.get a := by
  induction es with
  | nil => exact fun _ _ _ => rfl
  | cons e es ih =>
    intro s hwf hc hcount
    have hrest := ih (tickNext_wf e hwf hc) (tickNext_cursor_lt e hc)
    rw [ticksNext_cons]
    cases e with
    | false =>
      rw [List.count_cons_of_ne Bool.false_ne_true] at hcount
      simp only [tickNext_cursor, tickNext_delay, Bool.false_eq_true, if_false] at hrest
      exact hrest hcount
    | true =>
      rw [List.count_cons_self] at hcount
      rw [tickNext_true_cursor_toNat hc, tickNext_true_get_other hwf (by omega)] at hrest
      exact hrest (by omega)

/-- Settles O30: the cursor's count and the cells not passed, and both applied to the 2047 echo ticks after one that wrote
the cursor's cell. -/
theorem ringPeriod : Obligations.RingPeriod := by
  unfold Obligations.RingPeriod
  constructor
  · intro es s hm hwf hc
    exact ⟨ticksNext es s, tickAll_eq_some hm hc es, ticksNext_wf es hwf hc, ticksNext_cursor_toNat es hc,
      fun a ha => ticksNext_get ha es hwf hc⟩
  · intro es s hm hwf hc hcount
    have hm' : (tickNext true s).marked = false := (tickNext_marked true s).trans hm
    have hc' : (tickNext true s).cursor.toNat < 2048 := tickNext_cursor_lt true hc
    have hback : (ticksNext es (tickNext true s)).cursor = s.cursor := by
      rw [← BitVec.toNat_inj, ticksNext_cursor_toNat es hc', tickNext_true_cursor_toNat hc, hcount]
      omega
    refine ⟨tickNext true s, ticksNext es (tickNext true s), exec_tick_of_legal fun _ => hc, tickAll_eq_some hm' hc' es,
      hback, ?_⟩
    rw [hback, ticksNext_get hc es (tickNext_wf true hwf hc) hc', tickNext_true_get_cursor hwf]
    rw [hcount, tickNext_true_cursor_toNat hc]
    omega

end Sys2Proof.Machine
end

section
/-!
PROOF. The frequency mapper (spec/40_frequency_mapper.md R100-R104): what each map emits, that the increments fall as the
reading rises where the tables are in pitch order, and that the default tables are.
-/

namespace Sys2Proof.Machine

/-! ### What each map answers (R100-R103) -/

section
variable (s : State) (x : Reading)

theorem exec_mapLog : exec (.mapLog x) s =
    .next { s with events := s.events ++ [⟨.mapLog x, .mapResult (logIncrement s.cfg x)⟩] } := rfl

theorem exec_mapChrom : exec (.mapChrom x) s =
    .next { s with events := s.events ++ [⟨.mapChrom x, .mapResult (chromIncrement s.cfg x)⟩] } := rfl

theorem exec_mapPenta : exec (.mapPenta x) s =
    .next { s with events := s.events ++ [⟨.mapPenta x, .mapResult (pentaIncrement s.cfg x)⟩] } := rfl

end

/-- Settles O9, by the increments as the rules' table entries. -/
theorem mapsReturnTheirTableEntry : Obligations.MapsReturnTheirTableEntry := by
  unfold Obligations.MapsReturnTheirTableEntry
  intro s x
  refine ⟨⟨logIncrement s.cfg x, exec_mapLog s x, logIncrement_toNat s.cfg x⟩, ?_, ?_⟩
  · rw [exec_mapChrom, chromIncrement_eq]
  · rw [exec_mapPenta, pentaIncrement_eq]

/-! ### Pitch order (R104) -/

section
variable {c : Config} {x y : Reading}

/-- Within an octave the entries fall; from one octave to a later one an entry is halved at least once, and half of the
first entry is no more than the last. -/
theorem logIncrement_le (hc : c.pitchOrdered) (hxy : x.toNat ≤ y.toNat) :
    (logIncrement c y).toNat ≤ (logIncrement c x).toNat := by
  obtain ⟨hfall, hoctave, -, -⟩ := hc
  rw [logIncrement_toNat, logIncrement_toNat]
  have hy : y.toNat % 64 < antilogLen := Nat.mod_lt _ (by decide)
  have hx : x.toNat % 64 < antilogLen := Nat.mod_lt _ (by decide)
  obtain heq | hlt := Nat.eq_or_lt_of_le (Nat.div_le_div_right (c := 64) hxy)
  · rw [heq]
    exact Nat.div_le_div_right (hfall _ _ (by omega) hy)
  · calc (c.antilog.toList.getD (y.toNat % 64) 0).toNat / 2 ^ (y.toNat / 64)
        ≤ (c.antilog.toList.getD 0 0).toNat / 2 ^ (x.toNat / 64 + 1) :=
          Nat.div_le_div (hfall _ _ (Nat.zero_le _) hy) (Nat.pow_le_pow_right (by decide) hlt) (by positivity)
      _ = (c.antilog.toList.getD 0 0).toNat / 2 / 2 ^ (x.toNat / 64) := by rw [Nat.pow_succ', Nat.div_div_eq_div_mul]
      _ ≤ (c.antilog.toList.getD (x.toNat % 64) 0).toNat / 2 ^ (x.toNat / 64) :=
          Nat.div_le_div_right (hoctave.trans (hfall _ _ (Nat.le_of_lt_succ hx) (by decide)))

theorem chromIncrement_le (hc : c.pitchOrdered) (hxy : x.toNat ≤ y.toNat) :
    (chromIncrement c y).toNat ≤ (chromIncrement c x).toNat := by
  obtain ⟨-, -, hrise, -⟩ := hc
  rw [chromIncrement_eq, chromIncrement_eq]
  exact hrise _ _ (by omega) (chromIndex_lt x)

theorem pentaIncrement_le (hc : c.pitchOrdered) (hxy : x.toNat ≤ y.toNat) :
    (pentaIncrement c y).toNat ≤ (pentaIncrement c x).toNat := by
  obtain ⟨-, -, -, hrise⟩ := hc
  rw [pentaIncrement_eq, pentaIncrement_eq]
  exact hrise _ _ (by omega) (pentaIndex_lt x)

end

/-- Settles O10, map by map. -/
theorem mapsNeverRiseWithTheReading : Obligations.MapsNeverRiseWithTheReading := by
  unfold Obligations.MapsNeverRiseWithTheReading
  intro s x y hc hxy
  simp only [List.forall_mem_cons, List.not_mem_nil, false_implies, implies_true, and_true]
  exact ⟨⟨_, _, exec_mapLog s x, exec_mapLog s y, logIncrement_le hc hxy⟩,
    ⟨_, _, exec_mapChrom s x, exec_mapChrom s y, chromIncrement_le hc hxy⟩,
    ⟨_, _, exec_mapPenta s x, exec_mapPenta s y, pentaIncrement_le hc hxy⟩⟩

/-! ### The default tables (R104-R107; log 7) -/

/-- In a table whose neighbours are in order, every entry is in order with every later one. -/
theorem rel_getD_of_isChain {r : Half → Half → Prop} (hrefl : ∀ v, r v v) (htrans : ∀ {u v w}, r u v → r v w → r u w)
    {n : Nat} {t : Vector Half n} (h : t.toList.IsChain r) {i j : Nat} (hij : i ≤ j) (hj : j < n) :
    r (t.toList.getD i 0) (t.toList.getD j 0) := by
  have hjl : j < t.toList.length := index_lt_length_toList t hj
  have : Trans r r r := ⟨htrans⟩
  have hpairs := List.pairwise_iff_getElem.1 (List.isChain_iff_pairwise.1 h)
  rw [List.getD_eq_getElem _ _ (hij.trans_lt hjl), List.getD_eq_getElem _ _ hjl]
  obtain rfl | hlt := Nat.eq_or_lt_of_le hij
  · exact hrefl _
  · exact hpairs i j _ hjl hlt

/-- Two lists in order make one where the last entry of the first is in order with the first of the second. -/
theorem isChain_append_of_ends {r : Half → Half → Prop} {l l' : List Half} {u v : Half} (h : l.IsChain r)
    (h' : l'.IsChain r) (hu : l.getLast? = some u) (hv : l'.head? = some v) (huv : r u v) : (l ++ l').IsChain r := by
  refine List.isChain_append.2 ⟨h, h', fun x hx y hy => ?_⟩
  rw [hu] at hx
  rw [hv] at hy
  cases hx
  cases hy
  exact huv

/-- The order of `ANTILOG`'s entries. -/
abbrev Falls (u v : Half) : Prop := v.toNat ≤ u.toNat

/-- The order of `CHROM`'s and `PENTA`'s entries. -/
abbrev Rises (u v : Half) : Prop := u.toNat ≤ v.toNat

theorem antilog_isChain : (antilogPart0 ++ antilogPart1).IsChain Falls :=
  isChain_append_of_ends (by decide) (by decide) rfl rfl (by decide)

theorem chrom_isChain : (chromPart0 ++ chromPart1 ++ chromPart2 ++ chromPart3).IsChain Rises := by
  have h01 : (chromPart0 ++ chromPart1).IsChain Rises :=
    isChain_append_of_ends (by decide) (by decide) rfl rfl (by decide)
  have h012 : (chromPart0 ++ chromPart1 ++ chromPart2).IsChain Rises :=
    isChain_append_of_ends h01 (by decide) (u := 652) rfl rfl (by decide)
  exact isChain_append_of_ends h012 (by decide) (u := 4143) rfl rfl (by decide)

theorem penta_isChain : (pentaPart0 ++ pentaPart1).IsChain Rises :=
  isChain_append_of_ends (by decide) (by decide) rfl rfl (by decide)

theorem defaultConfig_pitchOrdered : defaultConfig.pitchOrdered := by
  refine ⟨fun _ _ => ?antilog, by decide, fun _ _ => ?chrom, fun _ _ => ?penta⟩
  case antilog =>
    exact rel_getD_of_isChain (t := defaultAntilog) (r := Falls) (fun _ => Nat.le_refl _)
      (fun huv hvw => Nat.le_trans hvw huv) antilog_isChain
  case chrom =>
    exact rel_getD_of_isChain (t := defaultChrom) (r := Rises) (fun _ => Nat.le_refl _) Nat.le_trans chrom_isChain
  case penta =>
    exact rel_getD_of_isChain (t := defaultPenta) (r := Rises) (fun _ => Nat.le_refl _) Nat.le_trans penta_isChain

/-- Settles O11: neighbouring entries are in order, so all are; the end readings' indexes are computed. -/
theorem defaultTablesArePitchOrdered : Obligations.DefaultTablesArePitchOrdered := by
  unfold Obligations.DefaultTablesArePitchOrdered
  exact ⟨defaultConfig_pitchOrdered, by decide⟩

end Sys2Proof.Machine
end

section
/-!
PROOF. The assembler (spec/30_encoding.md R86, R87): the word of each line and the error of an operand out of range, and the
pseudo-instructions as the listings of their members.
-/

namespace Sys2Proof.Machine

/-! ### Lines and listings of operations -/

/-- The agent and the word of a line's operation: the prefix's agent, or the opcode map's (R86). -/
def issuedFrom (g : Option Agent) (i : Instr) : Agent × CommandWord := (g.getD i.agent, encode i)

/-- The operation stands for these instructions where its operands are in range, and for none elsewhere. -/
def StandsFor (o : AsmOp) (is : List Instr) : Prop := expand o = if o.wellFormed then some is else none

theorem assembleLine_of_standsFor (g : Option Agent) {o : AsmOp} {is : List Instr} (h : StandsFor o is) :
    assembleLine ⟨g, o⟩ = if o.wellFormed then some (is.map (issuedFrom g)) else none := by
  rw [assembleLine, h]
  cases o.wellFormed <;> rfl

/-- A listing of lines with one operation each: an error if one is, else the operations in order. -/
theorem assemble_of_standsFor (g : Option Agent) {os : List AsmOp} {is : List Instr}
    (h : List.Forall₂ (fun o i => StandsFor o [i]) os is) :
    assemble (os.map fun o => ⟨g, o⟩) =
      if os.all AsmOp.wellFormed then some (is.map (issuedFrom g)) else none := by
  induction h with
  | nil => rfl
  | cons hline _ ih =>
    rename_i o i os is _
    rw [List.map_cons, assemble, assembleLine_of_standsFor g hline, ih, List.all_cons]
    cases o.wellFormed <;> cases os.all AsmOp.wellFormed <;> rfl

/-! ### The words (R86) -/

/-- The operand with the reserved or ignored bits of its format, all 0, in front. -/
theorem zero_append_eq_ofNat {k m : Nat} {x : BitVec m} {n : Nat} (hx : x.toNat = n) :
    0#k ++ x = BitVec.ofNat (k + m) n := by
  apply BitVec.eq_of_toNat_eq
  have hlt : n < 2 ^ (k + m) := hx ▸ x.isLt.trans_le (Nat.pow_le_pow_right (by decide) (Nat.le_add_left m k))
  rw [BitVec.toNat_append, BitVec.toNat_ofNat, BitVec.toNat_ofNat, Nat.zero_mod, Nat.zero_shiftLeft, Nat.zero_or, hx,
    Nat.mod_eq_of_lt hlt]

theorem word_eq_ofNat (op : BitVec 4) {n : Nat} (h : n < 65536) :
    (op ++ BitVec.ofNat 16 n : CommandWord) = BitVec.ofNat 20 (op.toNat <<< 16 ||| n) := by
  have hword : (op ++ BitVec.ofNat 16 n : BitVec (4 + 16)).toNat = op.toNat <<< 16 ||| n := by
    rw [BitVec.toNat_append, BitVec.toNat_ofNat, Nat.mod_eq_of_lt h]
  rw [← hword, BitVec.ofNat_toNat]
  exact (BitVec.setWidth_eq _).symm

theorem word8_eq_ofNat (op : BitVec 4) {n : Nat} (h : n < 256) :
    (op ++ (0#8 ++ BitVec.ofNat 8 n) : CommandWord) = BitVec.ofNat 20 (op.toNat <<< 16 ||| n) := by
  have hoperand : 0#8 ++ BitVec.ofNat 8 n = BitVec.ofNat 16 n :=
    zero_append_eq_ofNat ((BitVec.toNat_ofNat n 8).trans (Nat.mod_eq_of_lt h))
  exact (congrArg (fun v : Half => (op ++ v : CommandWord)) hoperand).trans (word_eq_ofNat op (by omega))

theorem wordT_eq_ofNat (op : BitVec 4) {n : Nat} (h : n < 2) :
    (op ++ (0#15 ++ BitVec.ofBool (n == 1)) : CommandWord) = BitVec.ofNat 20 (op.toNat <<< 16 ||| n) := by
  have hbit : (BitVec.ofBool (n == 1)).toNat = n := by
    obtain rfl | rfl : n = 0 ∨ n = 1 := by omega
    · rfl
    · rfl
  have hoperand : 0#15 ++ BitVec.ofBool (n == 1) = BitVec.ofNat 16 n := zero_append_eq_ofNat hbit
  exact (congrArg (fun v : Half => (op ++ v : CommandWord)) hoperand).trans (word_eq_ofNat op (by omega))

theorem wordM_eq_ofNat (op : BitVec 4) {n : Nat} (h : n < 1024) :
    (op ++ (0#6 ++ BitVec.ofNat 10 n) : CommandWord) = BitVec.ofNat 20 (op.toNat <<< 16 ||| n) := by
  have hoperand : 0#6 ++ BitVec.ofNat 10 n = BitVec.ofNat 16 n :=
    zero_append_eq_ofNat ((BitVec.toNat_ofNat n 10).trans (Nat.mod_eq_of_lt h))
  exact (congrArg (fun v : Half => (op ++ v : CommandWord)) hoperand).trans (word_eq_ofNat op (by omega))

/-- A line of one operation whose operand is in range exactly up to `m`, and whose word is then `w`. -/
theorem assembleLine_word (g : Option Agent) {o : AsmOp} {i : Instr} {n m : Nat} {w : CommandWord}
    (h : StandsFor o [i]) (hrange : o.wellFormed = decide (n ≤ m)) (hword : n ≤ m → encode i = w) :
    assembleLine ⟨g, o⟩ = if n ≤ m then some [(g.getD i.agent, w)] else none := by
  rw [assembleLine_of_standsFor g h, hrange]
  by_cases hn : n ≤ m
  · rw [decide_eq_true hn, if_pos rfl, if_pos hn, ← hword hn]
    rfl
  · rw [decide_eq_false hn, if_neg Bool.false_ne_true, if_neg hn]

/-- Settles O49, line by line: the operand's range and the word of its format. -/
theorem assemblerLinesGiveTheirWords : Obligations.AssemblerLinesGiveTheirWords := by
  unfold Obligations.AssemblerLinesGiveTheirWords
  intro g n
  have hbelow : ∀ m, decide (n < m + 1) = decide (n ≤ m) := fun m => decide_eq_decide.2 Nat.lt_succ_iff
  refine ⟨?sync, ?g1Inc, ?g1Dec, ?g2Inc, ?g2Dec, ?tick, ?log, ?chrom, ?penta, ?reset⟩
  case sync =>
    exact assembleLine_word g (i := .wrSyncInc (BitVec.ofNat 16 n)) rfl (hbelow _) fun h => word_eq_ofNat 0x1 (by omega)
  case g1Inc =>
    exact assembleLine_word g (i := .wrG1Inc (BitVec.ofNat 16 n)) rfl (hbelow _) fun h => word_eq_ofNat 0x2 (by omega)
  case g1Dec =>
    exact assembleLine_word g (i := .wrG1Dec (BitVec.ofNat 8 n)) rfl (hbelow _) fun h => word8_eq_ofNat 0x3 (by omega)
  case g2Inc =>
    exact assembleLine_word g (i := .wrG2Inc (BitVec.ofNat 16 n)) rfl (hbelow _) fun h => word_eq_ofNat 0x4 (by omega)
  case g2Dec =>
    exact assembleLine_word g (i := .wrG2Dec (BitVec.ofNat 8 n)) rfl (hbelow _) fun h => word8_eq_ofNat 0x5 (by omega)
  case tick =>
    exact assembleLine_word g (i := .tick (n == 1)) rfl (hbelow _) fun h => wordT_eq_ofNat 0x8 (by omega)
  case log =>
    exact assembleLine_word g (i := .mapLog (BitVec.ofNat 10 n)) rfl rfl fun h => wordM_eq_ofNat 0x9 (by omega)
  case chrom =>
    exact assembleLine_word g (i := .mapChrom (BitVec.ofNat 10 n)) rfl rfl fun h => wordM_eq_ofNat 0xA (by omega)
  case penta =>
    exact assembleLine_word g (i := .mapPenta (BitVec.ofNat 10 n)) rfl rfl fun h => wordM_eq_ofNat 0xB (by omega)
  case reset => rfl

/-! ### The pseudo-instructions (R87) -/

/-- A pseudo-instruction whose operands are in range exactly where its members' are assembles as the listing of them. -/
theorem assembleLine_eq_assemble (g : Option Agent) {o : AsmOp} {os : List AsmOp} {is : List Instr}
    (h : StandsFor o is) (hmembers : List.Forall₂ (fun o i => StandsFor o [i]) os is)
    (hrange : o.wellFormed = os.all AsmOp.wellFormed) :
    assembleLine ⟨g, o⟩ = assemble (os.map fun o => ⟨g, o⟩) := by
  rw [assembleLine_of_standsFor g h, assemble_of_standsFor g hmembers, hrange]

theorem tick_replicate_standsFor (e n : Nat) :
    List.Forall₂ (fun o i => StandsFor o [i]) (List.replicate n (.tick e)) (List.replicate n (.tick (e == 1))) := by
  induction n with
  | zero => exact .nil
  | succ n ih => exact .cons rfl ih

/-- Settles O50: each pseudo-instruction stands for its members' operations and has their ranges. -/
theorem pseudoInstructionsExpandToTheirMembers : Obligations.PseudoInstructionsExpandToTheirMembers := by
  unfold Obligations.PseudoInstructionsExpandToTheirMembers
  intro g a b c d f n
  refine ⟨?params, fun hb => ?ticks, fun hb => ?ticksError, ?voice1, ?voice2⟩
  case params =>
    exact assembleLine_eq_assemble g (os := [.wrSync a, .wrG1Inc b, .wrG1Dec c, .wrG2Inc d, .wrG2Dec f]) rfl
      (.cons rfl (.cons rfl (.cons rfl (.cons rfl (.cons rfl .nil))))) (by simp [AsmOp.wellFormed, Bool.and_assoc])
  case ticks =>
    have hwf : (AsmOp.ticks n b).wellFormed = true := decide_eq_true (Nat.lt_succ_of_le hb)
    have hrange : (List.replicate n (AsmOp.tick b)).all AsmOp.wellFormed = true := by
      rw [List.all_replicate]
      split
      · rfl
      · exact decide_eq_true (Nat.lt_succ_of_le hb)
    rw [← List.map_replicate (f := fun o => (⟨g, o⟩ : AsmLine))]
    exact assembleLine_eq_assemble g rfl (tick_replicate_standsFor b n) (hwf.trans hrange.symm)
  case ticksError =>
    rw [assembleLine_of_standsFor g rfl, if_neg]
    simp only [AsmOp.wellFormed, decide_eq_true_eq]
    omega
  case voice1 =>
    exact assembleLine_eq_assemble g (os := [.wrG1Inc a, .wrG1Dec b]) rfl (.cons rfl (.cons rfl .nil))
      (by simp [AsmOp.wellFormed])
  case voice2 =>
    exact assembleLine_eq_assemble g (os := [.wrG2Inc a, .wrG2Dec b]) rfl (.cons rfl (.cons rfl .nil))
      (by simp [AsmOp.wellFormed])

end Sys2Proof.Machine
end
